-- ==== Sys2Proof/Word.lean ====
section
/-! DEFINITION. The bit types of the engine: bytes, 64-bit words, 1600-bit permutation states. -/

namespace Sys2Proof

/-- A byte: 8 bits (00_scope.md R10). -/
abbrev Byte := BitVec 8

/-- A word: 8 bytes, 64 bits (00_scope.md R10). -/
abbrev Word := BitVec 64

/-- A permutation state: 200 bytes, 1600 bits. Bit `t` is bit `t mod 8` of byte `t div 8`, least
significant bit first (00_scope.md R11). -/
abbrev PState := BitVec 1600

end Sys2Proof
end

