-- ==== Sys2Proof/Machine/Bits.lean ====
section
/-! DEFINITION. The byte and word views of a 1600-bit permutation state (00_scope.md R11,
20_memory.md R51). -/

namespace Sys2Proof

/-- `s[b]`: byte `b` is bits `8b+7 : 8b` of the state (R11). -/
def PState.byte (s : PState) (b : Nat) : Byte := s.extractLsb' (8 * b) 8

/-- `s.w[i]`: word `i` is bytes `8i .. 8i+7`, little-endian (R51). -/
def PState.word (s : PState) (i : Nat) : Word := s.extractLsb' (64 * i) 64

/-- `s[b] <- s[b] xor x`, every other byte unchanged. -/
def PState.xorByte (s : PState) (b : Nat) (x : Byte) : PState :=
  s ^^^ (x.setWidth 1600 <<< (8 * b))

/-- The state whose first `n` bytes are `f 0 .. f (n−1)` and whose other bytes are 0. -/
def packBytes (f : Nat → Byte) : Nat → PState
  | 0 => 0#1600
  | n + 1 => packBytes f n ||| ((f n).setWidth 1600 <<< (8 * n))

/-- The state whose byte `b` is `f b`, for `b < 200`. -/
def PState.ofBytes (f : Nat → Byte) : PState := packBytes f 200

/-- The state whose first `n` words are `f 0 .. f (n−1)` and whose other words are 0. -/
def packWords (f : Nat → Word) : Nat → PState
  | 0 => 0#1600
  | n + 1 => packWords f n ||| ((f n).setWidth 1600 <<< (64 * n))

/-- The state whose word `i` is `f i`, for `i < 25`. -/
def PState.ofWords (f : Nat → Word) : PState := packWords f 25

/-- Byte `t` of a 64-bit word is its bits `8t+7 : 8t` (R51). -/
def wordByte (w : Word) (t : Nat) : Byte := w.extractLsb' (8 * t) 8

end Sys2Proof
end

