-- ==== Sys2Proof/Config.lean ====
section
/-! DEFINITION. What a build of the engine fixes (the vector width W), the constants of 00_scope.md
R8 that are sizes, and, as constants without a body, the values a power-on reset leaves unspecified and those of
registers outside their legal values. -/

namespace Sys2Proof

/-- The vector width `W`: how many lane states one call of the permutation primitive transforms,
"one of 1, 4, 8" and no other (00_scope.md R8, R6; 92_eei_decisions.md D25). -/
inductive VectorWidth where
  | w1
  | w4
  | w8
deriving DecidableEq, Repr, Inhabited

/-- `W` as a number of lanes. -/
def VectorWidth.lanes : VectorWidth → Nat
  | .w1 => 1
  | .w4 => 4
  | .w8 => 8

namespace Config

/-- The build's vector width. OPEN in the spec (R8, R148, D25): nothing constrains it here.
DESIGN CHOICE, safe: notes/assumptions/1.md. -/
opaque vectorWidth : VectorWidth

/-- Free value: what `rate` holds after the `k`-th power-on reset ("unspecified", 70_reset_and_hazards.md
R260, 93_implementation_defined.md U5). notes/assumptions/3.md. -/
opaque unspecifiedRate : Nat → BitVec 8

/-- Free value: what `apos` holds after the `k`-th power-on reset (R260, U5). notes/assumptions/3.md. -/
opaque unspecifiedApos : Nat → BitVec 8

/-- Free value: what `S` holds after the `k`-th power-on reset (R260, U5). notes/assumptions/3.md. -/
opaque unspecifiedS : Nat → PState

/-- Free value: what `L[j]` holds after the `k`-th power-on reset, as a function of `k` and `j`
(R260, U5). notes/assumptions/3.md. -/
opaque unspecifiedLane : Nat → Nat → PState

/-- Free value: the state after `v[b] <- v[b] xor x` where `v` has no byte `b` (`b ≥ 200`; a state has
bytes 0 to 199, R10), as a function of `v`, `b` and `x`. notes/assumptions/4.md. -/
opaque unstatedXor : PState → Nat → Byte → PState

/-- Free value: what the 8 bits of `apos` hold after `apos <- 256`, as a function of `rate`.
notes/assumptions/4.md. -/
opaque unstatedApos : BitVec 8 → BitVec 8

/-- Free value: `avail`, less one and in rows of 64 bytes, where `8·rate − cursor` is not above 0, as a
function of `rate` and `cursor`. notes/assumptions/4.md. -/
opaque unstatedAvail : BitVec 8 → BitVec 11 → Nat

/-- Free value: what the 11 bits of `cursor` hold after `cursor <- v` with `v ≥ 2048`, as a function of
`rate` and `v`. notes/assumptions/4.md. -/
opaque unstatedCursor : BitVec 8 → Nat → BitVec 11

/-- Free value: the byte delivered at canonical offset `c` where `SBbyte(c)` is not stated (`c` not below
`8·rate`, 20_memory.md R57, or a lane byte of index 200 or more), as a function of `rate`, `c` and
`L[0..7]`. notes/assumptions/4.md. -/
opaque unstatedByte : BitVec 8 → Nat → List PState → Byte

/-- `LANES` (R8). -/
abbrev lanes : Nat := 8

/-- `STATE_BYTES` (R8). -/
abbrev stateBytes : Nat := 200

/-- `STATE_WORDS` (R8). -/
abbrev stateWords : Nat := 25

/-- `GRAN`, the granularity of a `SQUEEZE` length (R8). -/
abbrev gran : Nat := 64

/-- `BUF_BYTES`, the bytes of the buffer (R8). -/
abbrev bufBytes : Nat := 1600

end Config

end Sys2Proof
end

