-- ==== Sys2Proof/Syntax.lean ====
section
/-! DEFINITION. The instructions (every row of spec/opcode_table.json), and what crosses the command
channel: transactions in, responses out, and the permutation request descriptor. -/

namespace Sys2Proof

/-- The four host commands and the three micro-operations (00_scope.md R12). An `UPDATE` carries its
byte list "and `ARG` is its length" (30_encoding.md R84). -/
inductive Instr where
  /-- `INIT128` (40_lifecycle.md R101). -/
  | init128
  /-- `INIT256` (R102). -/
  | init256
  /-- `UPDATE` of the payload `data`, first byte first (R105). -/
  | update (data : List Byte)
  /-- `SQUEEZE` of `n = ARG` bytes (43_parallel_squeeze.md R160). -/
  | squeeze (n : BitVec 28)
  /-- The micro-operation `FINALIZE` (41_lane_expansion.md R121). -/
  | finalize
  /-- The micro-operation `EXPAND` (R122). -/
  | expand
  /-- The micro-operation `PERMALL` (42_permutation_scheduler.md R141). -/
  | permall
deriving DecidableEq, Repr

/-- The host can issue the four commands; the three micro-operations have no command-word encoding
(30_encoding.md R89). -/
def Instr.hostIssuable : Instr → Bool
  | .init128 => true
  | .init256 => true
  | .update _ => true
  | .squeeze _ => true
  | .finalize => false
  | .expand => false
  | .permall => false

/-- One transaction as the host presents it: a 32-bit command word and, for `UPDATE`, a payload
(30_encoding.md R80, R82). -/
structure Transaction where
  word : BitVec 32
  payload : List Byte
deriving DecidableEq, Repr

/-- What the host can do to the engine between two steps: present a transaction (R80), or assert the
power-on reset (70_reset_and_hazards.md R260). notes/assumptions/3.md, notes/assumptions/5.md. -/
inductive HostInput where
  | command (t : Transaction)
  | powerOn
deriving DecidableEq, Repr

/-- The four statuses of a response (30_encoding.md R86). -/
inductive Status where
  | ok
  | invalidState
  | invalidLength
  | invalidCommand
deriving DecidableEq, Repr

/-- One response: a status and, for a successful `SQUEEZE`, a payload (R80). -/
structure Response where
  status : Status
  payload : List Byte
deriving DecidableEq, Repr

/-- A permutation request: lanes `base` to `base + width − 1` (30_encoding.md R90). -/
structure Preq where
  width : VectorWidth
  base : Nat
deriving DecidableEq, Repr

end Sys2Proof
end

