-- ==== Sys2Proof/WellFormed.lean ====
section
/-! DEFINITION. When an instruction, a permutation request, or a transaction is well formed. -/

namespace Sys2Proof

/-- An `UPDATE` carries at most `2^28 − 1` bytes, the largest length `ARG` holds (30_encoding.md R84,
R85). A `SQUEEZE` length is a 28-bit value by its type; its alignment is a check of the command and
not of the encoding (43_parallel_squeeze.md R162). -/
def Instr.wellFormed : Instr → Bool
  | .init128 => true
  | .init256 => true
  | .update data => decide (data.length < 2 ^ 28)
  | .squeeze _ => true
  | .finalize => true
  | .expand => true
  | .permall => true

/-- `BASE` is "a multiple of `WIDTH`, `BASE + WIDTH ≤ 8`" (30_encoding.md R90). -/
def Preq.wellFormed (q : Preq) : Bool :=
  decide (q.base % q.width.lanes = 0) && decide (q.base + q.width.lanes ≤ Config.lanes)

end Sys2Proof
end

