-- ==== Sys2Proof/Decode.lean ====
section
/-! DEFINITION. Command words and request descriptors: the decoder, total on every transaction and
rejecting by name, then the encoder (30_encoding.md). -/

namespace Sys2Proof

/-- `OP`, bits 31:28 of the command word (30_encoding.md R82). -/
def opField (w : BitVec 32) : BitVec 4 := w.extractLsb' 28 4

/-- `ARG`, bits 27:0 of the command word (R82). -/
def argField (w : BitVec 32) : BitVec 28 := w.extractLsb' 0 28

/-- How many payload bytes a command word announces: `ARG` for `UPDATE`, none for any other word
(R83, R84, R88: "its length is the word's own `ARG`"). -/
def payloadLength (w : BitVec 32) : Nat :=
  if opField w = 3#4 then (argField w).toNat else 0

/-- "a transaction whose payload length differs from `ARG` is malformed at the channel level and
cannot be presented to the engine" (R84). -/
def Transaction.presentable (t : Transaction) : Bool :=
  decide (t.payload.length = payloadLength t.word)

/-- Why a transaction is no instruction. -/
inductive DecodeError where
  /-- The word spells no command: status `InvalidCommand` (R87). -/
  | invalidCommand
  /-- The payload does not have the length the word announces (R84). notes/assumptions/6.md. -/
  | malformedPayload
deriving DecidableEq, Repr

/-- The decoder: the opcode map of R83, illegal words as R87 lists them. -/
def decode (t : Transaction) : Except DecodeError Instr :=
  if t.presentable then
    if opField t.word = 1#4 then
      if argField t.word = 0#28 then .ok .init128 else .error .invalidCommand
    else if opField t.word = 2#4 then
      if argField t.word = 0#28 then .ok .init256 else .error .invalidCommand
    else if opField t.word = 3#4 then .ok (.update t.payload)
    else if opField t.word = 4#4 then .ok (.squeeze (argField t.word))
    else .error .invalidCommand
  else .error .malformedPayload

/-- `WIDTH` as the descriptor's bits 7:4 spell it (R90). -/
def decodeWidth (w : BitVec 4) : Option VectorWidth :=
  if w = 1#4 then some .w1
  else if w = 4#4 then some .w4
  else if w = 8#4 then some .w8
  else none

/-- The permutation request a descriptor spells, none for a value "never issued" (R90). -/
def decodePreq (d : BitVec 8) : Option Preq :=
  match decodeWidth (d.extractLsb' 4 4) with
  | none => none
  | some w =>
    let q : Preq := ⟨w, (d.extractLsb' 0 4).toNat⟩
    if q.wellFormed then some q else none

/-- The transaction whose bits, numbered as spec/opcode_table.json numbers them, are the low `nbits`
bits of `w`, every bit above them 0: the command word is bits 31:0, payload byte `t` is bits
`32 + 8t + 7 : 32 + 8t`, and the payload is as long as the word announces. -/
def tableTransaction (nbits w : Nat) : Transaction :=
  let bits := w % 2 ^ nbits
  let word := BitVec.ofNat 32 bits
  ⟨word, (List.range (payloadLength word)).map fun t => BitVec.ofNat 8 (bits >>> (32 + 8 * t))⟩

/-- The instruction the decoder reads from the bits `w` of an opcode-table row. -/
def decodeTableWord (nbits w : Nat) : Option Instr :=
  match decode (tableTransaction nbits w) with
  | .ok i => some i
  | .error _ => none

/-- The encoder, written from R83 and R91: the transaction that issues an instruction; none for the
three micro-operations, which "have no command-word encoding" (R89). -/
def encode : Instr → Option Transaction
  | .init128 => some ⟨0x10000000#32, []⟩
  | .init256 => some ⟨0x20000000#32, []⟩
  | .update data => some ⟨3#4 ++ BitVec.ofNat 28 data.length, data⟩
  | .squeeze n => some ⟨4#4 ++ n, []⟩
  | .finalize => none
  | .expand => none
  | .permall => none

/-- The descriptor of a request: bits 7:4 `WIDTH`, bits 3:0 `BASE` (R90). -/
def encodePreq (q : Preq) : BitVec 8 :=
  BitVec.ofNat 4 q.width.lanes ++ BitVec.ofNat 4 q.base

/-- The status code of the response (R86). -/
def Status.code : Status → BitVec 8
  | .ok => 0x00#8
  | .invalidState => 0x01#8
  | .invalidLength => 0x02#8
  | .invalidCommand => 0x03#8

end Sys2Proof
end

