-- ==== Sys2Proof/Machine/State.lean ====
section
/-! DEFINITION. The state of the engine as plain data, its reset value, and the reasons a step can
stop. -/

namespace Sys2Proof.Machine

/-- The lifecycle phase (10_state.md R25). -/
inductive Mode where
  | absorbing
  | squeezing
deriving DecidableEq, Repr

/-- The buffer's bytes as (address, byte) cells (20_memory.md R50), in the canonical form
`Memory.wf`. -/
abbrev Memory := List Host.Cell

/-- What an address the list does not name reads as. The spec gives the buffer no power-on contents
(10_state.md R37): DESIGN CHOICE, unsafe before the first `INIT`, notes/assumptions/2.md and 9.md. -/
def Memory.unlisted : Byte := 0x00#8

/-- The canonical form: addresses strictly rising and inside the 1600 bytes, and no cell that holds
what an unlisted address reads as. -/
abbrev Memory.wf (m : Memory) : Prop :=
  m.Pairwise (fun c d => c.1 < d.1) ∧
    ∀ c ∈ m, c.1 < Config.bufBytes ∧ c.2 ≠ Memory.unlisted

/-- The state. The first seven fields are the XOF instance of 10_state.md R20, `buffer` being the
storage that holds `L[0..7]` (R22). -/
structure State where
  /-- R26: an instance exists. -/
  valid : Bool
  /-- R25. -/
  mode : Mode
  /-- R23. -/
  rate : BitVec 8
  /-- R24. -/
  cursor : BitVec 11
  /-- R29. -/
  apos : BitVec 8
  /-- R28: the absorption state. -/
  S : PState
  /-- R21, R22: the 1600 bytes that hold the lane state file. -/
  buffer : Memory
  /-- `W` (00_scope.md R8): configuration, written by no step. notes/assumptions/1.md. -/
  width : VectorWidth
  /-- What the host will present, in order (30_encoding.md R80). notes/assumptions/5.md. -/
  inbox : List HostInput
  /-- The responses returned, oldest first (R80, R86). notes/assumptions/5.md. -/
  outbox : List Response
  /-- The request descriptors issued since reset, oldest first: an observation
  (42_permutation_scheduler.md R149). notes/assumptions/8.md. -/
  trace : List (BitVec 8)
  /-- The scalar permutations of `S` done so far: an observation (40_lifecycle.md R109,
  42_permutation_scheduler.md R147). notes/assumptions/8.md. -/
  scalarPerms : Nat
  /-- The model's own counter of power-on resets: the index of the free values a reset leaves.
  notes/assumptions/3.md. -/
  resets : Nat
deriving DecidableEq, Repr

/-- The faults of a step. There is none: "There is no fatal/unrecoverable internal error"
(60_exceptions.md R238), and an error is a response (R236). -/
inductive Fault where
deriving DecidableEq, Repr

/-- The stops of a step that are refusals. -/
inductive Refusal where
  /-- An arm of `exec` whose instruction has no meaning yet; safe. -/
  | notModelled (mnemonic : String)
  /-- Raised by the step on a transaction whose payload is not as long as its word announces, which
  "cannot be presented to the engine" (30_encoding.md R84). Safe. notes/assumptions/6.md. -/
  | malformedTransaction
deriving DecidableEq, Repr

/-- The state after power-on reset (10_state.md R37, 70_reset_and_hazards.md R260): `valid`, `mode`
and `cursor` are the spec's; `rate`, `apos`, `S` and `L` are unspecified there and hold the values
notes/assumptions/2.md names (DESIGN CHOICE, unsafe); the rest are the model's own fields. -/
def State.reset : State where
  valid := false
  mode := .absorbing
  rate := 168#8
  cursor := 0#11
  apos := 0#8
  S := 0#1600
  buffer := []
  width := Config.vectorWidth
  inbox := []
  outbox := []
  trace := []
  scalarPerms := 0
  resets := 0

end Sys2Proof.Machine
end

