-- ==== Sys2Proof/Machine/Operands.lean ====
section
/-! DEFINITION. Operand forms: the length of a `SQUEEZE`, the layout of the lane states in the buffer,
the serializer's address map, the requests of one `PermuteAllLanes()`, and the spec's byte
constants. -/

namespace Sys2Proof.Machine

/-- `n = zext(CMD bits[27:0])` (30_encoding.md R84). -/
def squeezeLength (n : BitVec 28) : Nat := n.toNat

/-- `n mod 64 ≠ 0` (43_parallel_squeeze.md R162). -/
def lengthMisaligned (n : BitVec 28) : Bool := decide (squeezeLength n % Config.gran ≠ 0)

/-- `rate` at security level 128 (10_state.md R23). -/
def rate128 : BitVec 8 := 168#8

/-- `rate` at security level 256 (R23). -/
def rate256 : BitVec 8 := 136#8

/-- `DSUFFIX` (00_scope.md R8, 41_lane_expansion.md R126). -/
def dsuffix : Byte := 0x1F#8

/-- `PADEND` (R8, R126). -/
def padend : Byte := 0x80#8

/-- `P_W(j, w)`: the buffer word that holds lane-local word `w` of lane `j` (20_memory.md R55). -/
def wordIndex (W : VectorWidth) (j w : Nat) : Nat :=
  match W with
  | .w8 => 8 * w + j
  | .w4 => 100 * (j / 4) + 4 * w + j % 4
  | .w1 => 25 * j + w

/-- The physical address of `L[j][b]`: `8·P_W(j, b div 8) + (b mod 8)` (R55). -/
def byteAddr (W : VectorWidth) (j b : Nat) : Nat := 8 * wordIndex W j (b / 8) + b % 8

/-- The lane of canonical offset `c`: `(c div 8) mod 8` (20_memory.md R57, 43_parallel_squeeze.md
R166). -/
def canonicalLane (c : Nat) : Nat := c / 8 % 8

/-- The byte of that lane: `8·((c div 8) div 8) + (c mod 8)` (R57, R166). -/
def canonicalByte (c : Nat) : Nat := 8 * (c / 8 / 8) + c % 8

/-- The physical address of canonical offset `c` (R57). -/
def canonicalAddr (W : VectorWidth) (c : Nat) : Nat := byteAddr W (canonicalLane c) (canonicalByte c)

/-- The requests one `PermuteAllLanes()` issues at width `W`, in issue order: `BASE = g·W` for
`g = 0 .. 8/W − 1` (42_permutation_scheduler.md R143). -/
def requests (W : VectorWidth) : List Preq :=
  (List.range (Config.lanes / W.lanes)).map fun g => ⟨W, g * W.lanes⟩

end Sys2Proof.Machine
end

