-- ==== Sys2Proof/Machine/Flags.lean ====
section
/-! DEFINITION. The flag-like state: the code of `mode`, and the conditions the commands test
(10_state.md R25, R26, R30; 60_exceptions.md R231). -/

namespace Sys2Proof.Machine

/-- `mode` as its one bit: 0 = Absorbing, 1 = Squeezing (10_state.md R25). -/
def Mode.code : Mode → BitVec 1
  | .absorbing => 0#1
  | .squeezing => 1#1

/-- `valid = 0`: no `INIT` since reset (60_exceptions.md R232). -/
def notInitialised (s : State) : Bool := !s.valid

/-- `mode = Squeezing` (60_exceptions.md R233). -/
def squeezingBegun (s : State) : Bool := decide (s.mode = .squeezing)

end Sys2Proof.Machine
end

