-- ==== Sys2Proof/Machine/Keccak.lean ====
section
/-! DEFINITION. The permutation Keccak-p[1600,24] (45_external_primitives.md R211 to R213). The spec
marks its content "from general knowledge, not in source": notes/assumptions/11.md. -/

namespace Sys2Proof

/-- `A[x, y] = A[x + 5y]`, indices modulo 5 (R211). -/
def keccakA (s : PState) (x y : Nat) : Word := s.word (x % 5 + 5 * (y % 5))

/-- `ROT[x, y]`: row `x`, column `y` of the table of R213. -/
def keccakRot (x y : Nat) : Nat :=
  (([[ 0, 36,  3, 41, 18],
     [ 1, 44, 10, 45,  2],
     [62,  6, 43, 15, 61],
     [28, 55, 25, 21, 56],
     [27, 20, 39,  8, 14]] : List (List Nat)).getD x []).getD y 0

/-- `RC[0 .. 23]` (R212). -/
def keccakRC : List Word :=
  [0x0000000000000001#64, 0x0000000000008082#64, 0x800000000000808A#64, 0x8000000080008000#64,
   0x000000000000808B#64, 0x0000000080000001#64, 0x8000000080008081#64, 0x8000000000008009#64,
   0x000000000000008A#64, 0x0000000000000088#64, 0x0000000080008009#64, 0x000000008000000A#64] ++
  [0x000000008000808B#64, 0x800000000000008B#64, 0x8000000000008089#64, 0x8000000000008003#64,
   0x8000000000008002#64, 0x8000000000000080#64, 0x000000000000800A#64, 0x800000008000000A#64,
   0x8000000080008081#64, 0x8000000000008080#64, 0x0000000080000001#64, 0x8000000080008008#64]

/-- The step θ (R211). -/
def keccakTheta (s : PState) : PState :=
  let c := fun x =>
    keccakA s x 0 ^^^ keccakA s x 1 ^^^ keccakA s x 2 ^^^ keccakA s x 3 ^^^ keccakA s x 4
  let d := fun x => c (x + 4) ^^^ (c (x + 1)).rotateLeft 1
  PState.ofWords fun i => keccakA s (i % 5) (i / 5) ^^^ d (i % 5)

/-- The steps ρ and π: `B[y, 2x+3y] = rol64(A[x,y], ROT[x,y])` (R211). The word `B[X, Y]` comes from
`y = X` and `x = X + 3Y` modulo 5, the solution of `2x + 3y = Y`. -/
def keccakRhoPi (s : PState) : PState :=
  PState.ofWords fun i =>
    let x := (i % 5 + 3 * (i / 5)) % 5
    let y := i % 5
    (keccakA s x y).rotateLeft (keccakRot x y)

/-- The step χ (R211). -/
def keccakChi (b : PState) : PState :=
  PState.ofWords fun i =>
    let x := i % 5
    let y := i / 5
    keccakA b x y ^^^ (~~~(keccakA b (x + 1) y) &&& keccakA b (x + 2) y)

/-- The step ι with round constant `rc` (R211). -/
def keccakIota (rc : Word) (s : PState) : PState := s ^^^ rc.setWidth 1600

/-- One round (R211). -/
def keccakRound (s : PState) (rc : Word) : PState :=
  keccakIota rc (keccakChi (keccakRhoPi (keccakTheta s)))

/-- `KeccakP(s)`: 24 rounds, round index 0 to 23 in this order (R211). -/
@[irreducible] def keccakP (s : PState) : PState := keccakRC.foldl keccakRound s

end Sys2Proof
end

