-- ==== Sys2Proof/Machine/Ops.lean ====
section
/-! DEFINITION. The named operations the meanings are built from: the buffer's bytes, the lane view,
absorbing, the permutation scheduler, Lane Expansion, the delivery loop, the responses (taking an
error is one of them), the instance's creation, and the power-on reset. -/

namespace Sys2Proof.Machine

/-! ## The buffer (20_memory.md R56) -/

/-- `MemRead(addr, 1)`: the byte at an address. -/
def Memory.read : Memory → Nat → Byte
  | [], _ => Memory.unlisted
  | c :: m, a => if c.1 = a then c.2 else Memory.read m a

/-- The cells of the bytes `bs` from address `a` on, less those that hold what an unlisted address
reads as. -/
def Memory.cells : Nat → List Byte → Memory
  | _, [] => []
  | a, b :: bs =>
    if b = Memory.unlisted then Memory.cells (a + 1) bs else (a, b) :: Memory.cells (a + 1) bs

/-- `MemWrite(addr, n, v)` with `v = bs`, `n` its length. It needs `addr + n ≤ 1600`, which every
write of the rules meets (R56); outside, nothing is written (notes/assumptions/10.md). -/
def Memory.write (m : Memory) (a : Nat) (bs : List Byte) : Memory :=
  if a + bs.length ≤ Config.bufBytes then
    m.filter (fun c => decide (c.1 < a)) ++
      (Memory.cells a bs ++ m.filter (fun c => decide (a + bs.length ≤ c.1)))
  else m

/-- The buffer whose 1600 bytes are 0x00. -/
def Memory.zeros : Memory := []

/-! ## The lane view (10_state.md R21, R22; 20_memory.md R55) -/

/-- `L[j][b]`: the buffer byte at its physical address. -/
def laneByte (W : VectorWidth) (m : Memory) (j b : Nat) : Byte := m.read (byteAddr W j b)

/-- `L[j]`. -/
def lane (W : VectorWidth) (m : Memory) (j : Nat) : PState := PState.ofBytes (laneByte W m j)

/-- The 8 bytes of a word in address order (R51). -/
def wordBytes (w : Word) : List Byte := (List.range 8).map (wordByte w)

/-- `L[j] <- v`, a whole state, word by word at the addresses of R55. -/
def setLane (W : VectorWidth) (j : Nat) (v : PState) (m : Memory) : Memory :=
  (List.range Config.stateWords).foldl
    (fun m w => m.write (8 * wordIndex W j w) (wordBytes (v.word w))) m

/-- `v[b] <- v[b] xor x` on a state. A state has no byte 200 or above (00_scope.md R10); where a register
outside its legal values names one, the state that results is a free value (notes/assumptions/4.md). -/
def xorStateByte (v : PState) (b : Nat) (x : Byte) : PState :=
  if b < Config.stateBytes then v.xorByte b x else Config.unstatedXor v b x

/-- `L[j][b] <- L[j][b] xor x`: one byte of the buffer, or the free value of `xorStateByte`. -/
def xorLaneByte (W : VectorWidth) (j b : Nat) (x : Byte) (m : Memory) : Memory :=
  if b < Config.stateBytes then m.write (byteAddr W j b) [laneByte W m j b ^^^ x]
  else setLane W j (Config.unstatedXor (lane W m j) b x) m

/-! ## Responses; an error (30_encoding.md R86, 60_exceptions.md R236) -/

/-- The engine returns one response. -/
def State.respond (s : State) (e : Status) (out : List Byte) : State :=
  { s with outbox := s.outbox ++ [⟨e, out⟩] }

/-- `raise e`: the command ends with status `e` and no payload, and no element of the instance is
written (60_exceptions.md R236). There is no handler and no return: the engine is ready for the next
command (R237). -/
def raise (e : Status) (s : State) : Host.Outcome State Fault Refusal := .next (s.respond e [])

/-- The command ends with `OK` and the payload `out`. -/
def finish (out : List Byte) (s : State) : Host.Outcome State Fault Refusal :=
  .next (s.respond .ok out)

/-! ## Creating the instance (40_lifecycle.md R101, R102) -/

/-- What `INIT128` and `INIT256` do, `rate` being their one difference. -/
def createInstance (rate : BitVec 8) (s : State) : State :=
  { s with
    rate := rate, S := 0#1600, apos := 0#8, cursor := 0#11, mode := .absorbing,
    buffer := Memory.zeros, valid := true }

/-! ## Absorbing (40_lifecycle.md R106) -/

/-- `apos <- apos + 1`. From a legal `apos` the sum fits its 8 bits (00_scope.md R13); 256 does not, and
leaves a free value (notes/assumptions/4.md). -/
def nextApos (s : State) : BitVec 8 :=
  if s.apos.toNat + 1 < 2 ^ 8 then BitVec.ofNat 8 (s.apos.toNat + 1) else Config.unstatedApos s.rate

/-- One pass of the loop of `Absorb`. -/
def absorbByte (s : State) (x : Byte) : State :=
  if s.apos.toNat + 1 = s.rate.toNat then
    { s with
      S := keccakP (xorStateByte s.S s.apos.toNat x), apos := 0#8,
      scalarPerms := s.scalarPerms + 1 }
  else { s with S := xorStateByte s.S s.apos.toNat x, apos := nextApos s }

/-- `Absorb(data)`: byte after byte, in order. -/
def absorb (data : List Byte) (s : State) : State := data.foldl absorbByte s

/-! ## The permutation scheduler (42_permutation_scheduler.md R140 to R144) -/

/-- The `k`-th of the states that the region of a request holds: its word `w` is word `W·w + k` of the
region, which begins at byte `200·BASE` (R144). -/
def regionState (q : Preq) (m : Memory) (k : Nat) : PState :=
  PState.ofBytes fun b =>
    m.read (200 * q.base + 8 * (q.width.lanes * (b / 8) + k) + b % 8)

/-- What the primitive leaves in the region of a request: its `W` states permuted, in the same
interleaved layout, `200·W` bytes (R140, R144). -/
def permutedRegion (q : Preq) (m : Memory) : List Byte :=
  let states := (List.range q.width.lanes).map fun k => keccakP (regionState q m k)
  (List.range (200 * q.width.lanes)).map fun t =>
    (states.getD (t / 8 % q.width.lanes) 0#1600).byte (8 * (t / 8 / q.width.lanes) + t % 8)

/-- The effect of one request on the buffer, in place (R143, R144). -/
def permuteRequest (q : Preq) (m : Memory) : Memory := m.write (200 * q.base) (permutedRegion q m)

/-- The scheduler issues one request; the trace records its descriptor (R143, R149). -/
def issueRequest (s : State) (q : Preq) : State :=
  { s with buffer := permuteRequest q s.buffer, trace := s.trace ++ [encodePreq q] }

/-- `PermuteAllLanes()`: the requests of the build's width, in ascending order (R143). -/
def permuteAllLanes (s : State) : State := (requests s.width).foldl issueRequest s

/-! ## Lane Expansion (41_lane_expansion.md R121, R123) -/

/-- `FINALIZE`: a mark without storage of its own; it changes nothing (R121). -/
def finalizeMark (s : State) : State := s

/-- The dispatcher and the domain separator for lane `i`: a copy of `S`, then the byte `i` at `apos`
(R123, R124). -/
def dispatchLane (s : State) (i : Nat) : State :=
  { s with
    buffer :=
      xorLaneByte s.width i s.apos.toNat (BitVec.ofNat 8 i) (setLane s.width i s.S s.buffer) }

/-- The dispatcher and the domain separator for all lanes (R123). -/
def dispatchLanes (s : State) : State := (List.range Config.lanes).foldl dispatchLane s

/-- `L[i][b] <- L[i][b] xor x` for all lanes (R123). -/
def xorLanes (b : Nat) (x : Byte) (s : State) : State :=
  (List.range Config.lanes).foldl
    (fun s i => { s with buffer := xorLaneByte s.width i b x s.buffer }) s

/-- The index `rate − 1`. For `rate = 0`, which is no legal value, there is none; 257, the index of no
byte and no other rule's index, stands for it (notes/assumptions/4.md). -/
def lastIndex (rate : Nat) : Nat := if rate = 0 then 257 else rate - 1

/-- The suffix and the final padding bit at position `p`, the overflow test of the source between them
(R123, R126, R127). -/
def padLanes (p : Nat) (s : State) : State :=
  let s1 := xorLanes p dsuffix s
  let s2 := if 0x80 ≤ dsuffix.toNat ∧ p = lastIndex s.rate.toNat then permuteAllLanes s1 else s1
  xorLanes (lastIndex s.rate.toNat) padend s2

/-- `EXPAND` past its check: lane bytes, block overflow, suffix and padding, closing permutation
(R123, R125, R128). -/
def expandLanes (s : State) : State :=
  let s1 := dispatchLanes (finalizeMark s)
  let p := s.apos.toNat + 1
  let s2 := if p = s.rate.toNat then padLanes 0 (permuteAllLanes s1) else padLanes p s1
  { permuteAllLanes s2 with cursor := 0#11, mode := .squeezing }

/-! ## The delivery loop (43_parallel_squeeze.md R163 to R166) -/

/-- The re-permutation sequencer: at the start of a pass, an exhausted super-block is replaced, all
lanes together (R164). -/
def refill (s : State) : State :=
  if s.cursor.toNat = 8 * s.rate.toNat then { permuteAllLanes s with cursor := 0#11 } else s

/-- `L[0..7]`, the lane state file as a list (10_state.md R21). -/
def laneFile (W : VectorWidth) (m : Memory) : List PState := (List.range Config.lanes).map (lane W m)

/-- `SBbyte(c)`, `c < 8·rate`: the byte at canonical offset `c` of the current super-block, read at its
physical address (20_memory.md R57, 43_parallel_squeeze.md R166). The rules state it for no other `c`,
and a lane has no byte 200 or above; where registers outside their legal values ask for either, the byte
is a free value (DESIGN CHOICE, safe: notes/assumptions/4.md). Below `8·rate` the formula is followed for
every `rate` (DESIGN CHOICE for a `rate` that is no multiple of 8, unsafe: the same entry). -/
def sbByte (s : State) (c : Nat) : Byte :=
  if c < 8 * s.rate.toNat ∧ canonicalByte c < Config.stateBytes then
    s.buffer.read (canonicalAddr s.width c)
  else Config.unstatedByte s.rate c (laneFile s.width s.buffer)

/-- The `d` bytes from `cursor` on, in canonical order (R163, R165). -/
def serialize (s : State) (d : Nat) : List Byte :=
  (List.range d).map fun t => sbByte s (s.cursor.toNat + t)

/-- `avail <- 8·rate − cursor`, "> 0 here" (R163). Where registers outside their legal values make the
difference 0 or less, `avail` is a free value above 0, in whole rows of 64 bytes (R171;
notes/assumptions/4.md). -/
def available (s : State) : Nat :=
  if s.cursor.toNat < 8 * s.rate.toNat then 8 * s.rate.toNat - s.cursor.toNat
  else Config.gran * (Config.unstatedAvail s.rate s.cursor + 1)

/-- `d <- min(avail, remaining)` (R163). -/
def passLength (s : State) (remaining : Nat) : Nat := min (available s) remaining

/-- `cursor <- cursor + d` (R163). From legal registers the sum is at most 1344 and fits its 11 bits
(00_scope.md R13); a sum that does not fit leaves a free value (notes/assumptions/4.md). -/
def advance (s : State) (d : Nat) : State :=
  { s with
    cursor :=
      if s.cursor.toNat + d < 2 ^ 11 then BitVec.ofNat 11 (s.cursor.toNat + d)
      else Config.unstatedCursor s.rate (s.cursor.toNat + d) }

/-- The loop of `Deliver`, at most `fuel` passes; each pass delivers at least one byte, so `fuel`
equal to `remaining` never cuts it short, whatever the registers hold (R163, R168; the lemma
`deliverLoop_length`). -/
def deliverLoop : Nat → Nat → State → List Byte × State
  | 0, _, s => ([], s)
  | fuel + 1, remaining, s =>
    if remaining = 0 then ([], s)
    else
      let s1 := refill s
      let d := passLength s1 remaining
      let r := deliverLoop fuel (remaining - d) (advance s1 d)
      (serialize s1 d ++ r.1, r.2)

/-- `Deliver(n)` (R163). -/
def deliver (n : Nat) (s : State) : List Byte × State := deliverLoop n n s

/-! ## Power-on reset (70_reset_and_hazards.md R260) -/

/-- The lane file a power-on reset leaves: free values (R260; notes/assumptions/3.md). -/
def unspecifiedBuffer (W : VectorWidth) (k : Nat) : Memory :=
  (List.range Config.lanes).foldl (fun m j => setLane W j (Config.unspecifiedLane k j) m)
    Memory.zeros

/-- A power-on reset: `valid <- 0`, `mode <- Absorbing`, `cursor <- 0`; `rate`, `apos`, `S` and `L`
unspecified; no response; the trace starts anew, since it counts "since reset" (R149, R260). -/
def powerOnReset (s : State) : State :=
  { s with
    valid := false, mode := .absorbing, cursor := 0#11,
    rate := Config.unspecifiedRate s.resets, apos := Config.unspecifiedApos s.resets,
    S := Config.unspecifiedS s.resets, buffer := unspecifiedBuffer s.width s.resets,
    trace := [], scalarPerms := 0, resets := s.resets + 1 }

end Sys2Proof.Machine
end

