-- ==== Sys2Proof/Machine/LaneExpansion.lean ====
section
/-! DEFINITION. The micro-operations `FINALIZE` and `EXPAND` (41_lane_expansion.md), exposed as
instructions of their own (60_exceptions.md R235; notes/assumptions/7.md). -/

namespace Sys2Proof.Machine

/-- `FINALIZE` (R121). -/
def execFinalize (s : State) : Host.Outcome State Fault Refusal := .next (finalizeMark s)

/-- `EXPAND` (R122, R123): a call in Squeezing mode "returns `InvalidState` and changes nothing"
(60_exceptions.md R235). A micro-operation that completes ends no command and returns no response. -/
def execExpand (s : State) : Host.Outcome State Fault Refusal :=
  if squeezingBegun s then raise .invalidState s
  else .next (expandLanes s)

end Sys2Proof.Machine
end

