-- ==== Sys2Proof/Machine/Lifecycle.lean ====
section
/-! DEFINITION. The lifecycle commands `INIT128`, `INIT256` and `UPDATE` (40_lifecycle.md). -/

namespace Sys2Proof.Machine

/-- `INIT128` (R101). `ARG ≠ 0` is an illegal word, rejected by the decoder (30_encoding.md R87). -/
def execInit128 (s : State) : Host.Outcome State Fault Refusal :=
  finish [] (createInstance rate128 s)

/-- `INIT256` (R102). -/
def execInit256 (s : State) : Host.Outcome State Fault Refusal :=
  finish [] (createInstance rate256 s)

/-- `UPDATE(data)` (R105): both checks come before any byte is absorbed. -/
def execUpdate (data : List Byte) (s : State) : Host.Outcome State Fault Refusal :=
  if notInitialised s then raise .invalidState s
  else if squeezingBegun s then raise .invalidState s
  else finish [] (absorb data s)

end Sys2Proof.Machine
end

