-- ==== Sys2Proof/Machine/Scheduler.lean ====
section
/-! DEFINITION. The micro-operation `PERMALL` (42_permutation_scheduler.md). -/

namespace Sys2Proof.Machine

/-- `PERMALL` (R141): `PermuteAllLanes()`; "Errors: none, ever". -/
def execPermall (s : State) : Host.Outcome State Fault Refusal := .next (permuteAllLanes s)

end Sys2Proof.Machine
end

