-- ==== Sys2Proof/Machine/Squeeze.lean ====
section
/-! DEFINITION. The command `SQUEEZE` (43_parallel_squeeze.md). -/

namespace Sys2Proof.Machine

/-- The first successful squeeze expands the lanes; a later one continues (R161, R168). -/
def expandIfAbsorbing (s : State) : State := if squeezingBegun s then s else expandLanes s

/-- `SQUEEZE(n)` (R161): the lifecycle check, the length check, then `EXPAND` once, then delivery. -/
def execSqueeze (n : BitVec 28) (s : State) : Host.Outcome State Fault Refusal :=
  if notInitialised s then raise .invalidState s
  else if lengthMisaligned n then raise .invalidLength s
  else
    let r := deliver (squeezeLength n) (expandIfAbsorbing s)
    finish r.1 r.2

end Sys2Proof.Machine
end

