-- ==== Sys2Proof/Machine/Dispatch.lean ====
section
/-! DEFINITION. One arm per instruction. -/

namespace Sys2Proof.Machine

def exec (i : Instr) (s : State) : Host.Outcome State Fault Refusal :=
  match i with
  | .init128 => Sys2Proof.Machine.execInit128 s
  | .init256 => Sys2Proof.Machine.execInit256 s
  | .update data => Sys2Proof.Machine.execUpdate data s
  | .squeeze n => Sys2Proof.Machine.execSqueeze n s
  | .finalize => Sys2Proof.Machine.execFinalize s
  | .expand => Sys2Proof.Machine.execExpand s
  | .permall => Sys2Proof.Machine.execPermall s

end Sys2Proof.Machine
end

