-- ==== Sys2Proof/Machine/Step.lean ====
section
/-! DEFINITION. One step: the engine takes the next host input and runs it to completion
(30_encoding.md R80: "a model treats a transaction as one step from (state, command, payload) to
(state, status, payload)"). -/

namespace Sys2Proof.Machine

/-- A transaction, at the state it was taken from the channel. -/
def runTransaction (t : Transaction) (s : State) : Host.Outcome State Fault Refusal :=
  match decode t with
  | .ok i => exec i s
  | .error .invalidCommand => raise .invalidCommand s
  | .error .malformedPayload => .refused .malformedTransaction

/-- One step. With nothing presented the engine waits for a command (10_state.md R37). -/
def step (s : State) : Host.Outcome State Fault Refusal :=
  match s.inbox with
  | [] => .next s
  | .command t :: rest => runTransaction t { s with inbox := rest }
  | .powerOn :: rest => .next (powerOnReset { s with inbox := rest })

/-- The host presents, as its next transaction, the one whose bits are the low `nbits` bits of `w`. -/
def State.withFetchWord (s : State) (nbits w : Nat) : State :=
  { s with inbox := .command (tableTransaction nbits w) :: s.inbox }

end Sys2Proof.Machine
end

