-- ==== Sys2Proof/Machine/Reference.lean ====
section
/-! DEFINITION. The sponge and SHAKE (45_external_primitives.md R214 to R216) and the sequential
reference with the output stream in closed form (44_reference_stream.md R190 to R192). No step calls
these; the engine is "judged against" them (00_scope.md R5). -/

namespace Sys2Proof

/-- The security level (00_scope.md R2). -/
inductive Level where
  | l128
  | l256
deriving DecidableEq, Repr

/-- `rate`, 168 or 136 bytes (10_state.md R23, R103). -/
def Level.rate : Level → Nat
  | .l128 => 168
  | .l256 => 136

/-- One byte absorbed at position `q`; a full block is permuted at once (R214). -/
def spongeAbsorbByte (rate : Nat) (p : PState × Nat) (x : Byte) : PState × Nat :=
  if p.2 + 1 = rate then (keccakP (p.1.xorByte p.2 x), 0) else (p.1.xorByte p.2 x, p.2 + 1)

/-- The sponge after absorbing `M`, from the all-zero state at position 0 (R214). -/
def spongeAbsorb (rate : Nat) (M : List Byte) : PState × Nat :=
  M.foldl (spongeAbsorbByte rate) (0#1600, 0)

/-- Suffix, padding and the permutation after them (R214). -/
def spongePad (rate : Nat) (p : PState × Nat) : PState :=
  keccakP ((p.1.xorByte p.2 0x1F#8).xorByte (rate - 1) 0x80#8)

/-- `st_t` of R215: the state whose first `rate` bytes are block `t` of the output of message `M`. -/
def spongeState (rate : Nat) (M : List Byte) : Nat → PState
  | 0 => spongePad rate (spongeAbsorb rate M)
  | t + 1 => keccakP (spongeState rate M t)

/-- Byte `u` of `SHAKE(level, M)` (R215, R216). -/
def shakeByte (l : Level) (M : List Byte) (u : Nat) : Byte :=
  (spongeState l.rate M (u / l.rate)).byte (u % l.rate)

/-- The message of lane `j`: the seed and the one byte `j` (41_lane_expansion.md R129). -/
def laneMessage (seed : List Byte) (j : Nat) : List Byte := seed ++ [BitVec.ofNat 8 j]

/-- `StreamByte(p)`: the byte at position `p` of the output stream (R192). -/
def streamByte (l : Level) (seed : List Byte) (p : Nat) : Byte :=
  let s := p / (8 * l.rate)
  let c := p % (8 * l.rate)
  let k := c / 8
  let j := k % 8
  let w := k / 8
  shakeByte l (laneMessage seed j) (s * l.rate + 8 * w + c % 8)

/-- `Ref(level, seed, n)` (R191). -/
def reference (l : Level) (seed : List Byte) (n : Nat) : List Byte :=
  (List.range n).map (streamByte l seed)

end Sys2Proof
end

