-- ==== Sys2Proof/Safety.lean ====
section
/-! DEFINITION. The terms claims are made in: the snapshot of an instance, the invariants between
commands, a run of instructions, and the ideal generator the engine is held to. -/

namespace Sys2Proof

open Sys2Proof.Machine

/-- The seven elements of 10_state.md R20, "`L` compared lane by lane on the logical view" (R34). -/
structure Snapshot where
  valid : Bool
  mode : Mode
  rate : BitVec 8
  cursor : BitVec 11
  apos : BitVec 8
  S : PState
  lanes : List PState
deriving DecidableEq, Repr

/-- The instance as a test bench compares it (R34). -/
def snapshot (s : State) : Snapshot where
  valid := s.valid
  mode := s.mode
  rate := s.rate
  cursor := s.cursor
  apos := s.apos
  S := s.S
  lanes := (List.range Config.lanes).map (lane s.width s.buffer)

/-- What holds between any two commands: the buffer in its canonical form, and R32 (a) to (d) of
10_state.md on an instance, R33's `(0, -)` before one. -/
structure Inv (s : State) : Prop where
  bufferWf : s.buffer.wf
  noInstance : s.valid = false → s.mode = .absorbing ∧ s.cursor = 0#11
  rateLegal : s.valid = true → s.rate = 168#8 ∨ s.rate = 136#8
  aposInBlock : s.valid = true → s.apos.toNat < s.rate.toNat
  cursorInSuperBlock : s.valid = true → s.cursor.toNat ≤ 8 * s.rate.toNat
  cursorOnRow : s.valid = true → s.cursor.toNat % 64 = 0
  absorbingAtZero : s.valid = true → s.mode = .absorbing → s.cursor = 0#11

/-- The registers that the next command reads are inside the bounds its pseudocode needs: in Absorbing
mode `apos` (10_state.md R29), in Squeezing mode `cursor` (R24), and `rate` at most 200, the bytes of a
state. The legal values of R20's table satisfy it; what commands do otherwise, where the rules state no
value, is free (notes/assumptions/4.md). No meaning tests it. -/
def Machine.registersInRange (s : State) : Bool :=
  decide (s.rate.toNat ≤ Config.stateBytes) &&
    match s.mode with
    | .absorbing => decide (s.apos.toNat < s.rate.toNat)
    | .squeezing => decide (0 < s.rate.toNat) && decide (s.cursor.toNat ≤ 8 * s.rate.toNat)

/-- The host presents only transactions whose payload is as long as their word announces
(30_encoding.md R84). -/
def inboxPresentable (s : State) : Prop :=
  ∀ t, HostInput.command t ∈ s.inbox → t.presentable = true

/-- An instruction does not read `cursor` at a state: with any other value there it leaves the same, the
value of `cursor` being overwritten alike, or kept. -/
def ignoresCursor (i : Instr) (s : State) : Prop :=
  ∃ t, exec i s = .next t ∧
    ((∀ c, exec i { s with cursor := c } = .next t) ∨
      ∀ c, exec i { s with cursor := c } = .next { t with cursor := c })

/-- An instruction reads neither `apos` nor `S` at a state: with any other values there it leaves the
same, the two being overwritten alike, or kept. -/
def ignoresAposS (i : Instr) (s : State) : Prop :=
  ∃ t, exec i s = .next t ∧
    ((∀ a v, exec i { s with apos := a, S := v } = .next t) ∨
      ∀ a v, exec i { s with apos := a, S := v } = .next { t with apos := a, S := v })

/-- A list of instructions, one after the other, as far as the first stop. -/
def execAll : List Instr → State → Host.Outcome State Fault Refusal
  | [], s => .next s
  | i :: is, s =>
    match exec i s with
    | .next t => execAll is t
    | .fault r => .fault r
    | .refused r => .refused r

/-- The initialise command of a level (40_lifecycle.md R100). -/
def initInstr : Level → Instr
  | .l128 => .init128
  | .l256 => .init256

/-- The payload bytes of responses, in order. -/
def payloads (rs : List Response) : List Byte := rs.flatMap Response.payload

/-- The ideal generator: an instance is a level, a seed, and the position in the output stream, none
while absorbing. It holds no permutation state. -/
structure Ideal where
  level : Level
  seed : List Byte
  pos : Option Nat
deriving DecidableEq, Repr

/-- What the contract of 44_reference_stream.md R194 makes of one command: the next ideal instance and
the response. A micro-operation is no command and changes nothing here. -/
def idealStep : Instr → Option Ideal → Option Ideal × Response
  | .init128, _ => (some ⟨.l128, [], none⟩, ⟨.ok, []⟩)
  | .init256, _ => (some ⟨.l256, [], none⟩, ⟨.ok, []⟩)
  | .update _, none => (none, ⟨.invalidState, []⟩)
  | .update data, some ⟨l, seed, none⟩ => (some ⟨l, seed ++ data, none⟩, ⟨.ok, []⟩)
  | .update _, some ⟨l, seed, some p⟩ => (some ⟨l, seed, some p⟩, ⟨.invalidState, []⟩)
  | .squeeze _, none => (none, ⟨.invalidState, []⟩)
  | .squeeze n, some a =>
    if n.toNat % 64 = 0 then
      (some { a with pos := some (a.pos.getD 0 + n.toNat) },
        ⟨.ok, (List.range n.toNat).map fun t => streamByte a.level a.seed (a.pos.getD 0 + t)⟩)
    else (some a, ⟨.invalidLength, []⟩)
  | .finalize, a => (a, ⟨.ok, []⟩)
  | .expand, a => (a, ⟨.ok, []⟩)
  | .permall, a => (a, ⟨.ok, []⟩)

/-- The number of re-permutations since `EXPAND` once `p` bytes are delivered (43_parallel_squeeze.md
R172). -/
def refillsAt (l : Level) (p : Nat) : Nat := (p - 1) / (8 * l.rate)

/-- The cursor once `p` bytes are delivered (R172): `8·rate`, not 0, at the end of a super-block. -/
def cursorAt (l : Level) (p : Nat) : Nat := if p = 0 then 0 else (p - 1) % (8 * l.rate) + 1

/-- The engine's state stands for an ideal instance: 10_state.md R32 (e) and (f), with the stream
position of R27. -/
def Simulates (s : State) : Option Ideal → Prop
  | none => s.valid = false
  | some a =>
    s.valid = true ∧ s.rate.toNat = a.level.rate ∧
    spongeAbsorb a.level.rate a.seed = (s.S, s.apos.toNat) ∧
    match a.pos with
    | none => s.mode = .absorbing ∧ s.cursor = 0#11
    | some p =>
      s.mode = .squeezing ∧ p % 64 = 0 ∧ s.cursor.toNat = cursorAt a.level p ∧
      ∀ j < 8, lane s.width s.buffer j =
        spongeState a.level.rate (laneMessage a.seed j) (refillsAt a.level p)

end Sys2Proof
end

