-- ==== Sys2Proof/Certificates/Slice0/Obligations.lean ====
section
/-! DEFINITION. The statements for the provers, from the numbered rules of spec/. -/

open Sys2Proof
open Sys2Proof.Machine

/-! ## The command channel: encodings and the step -/

/-- Encoding then decoding: every well-formed host command, with every length and every payload the
encoding admits, has a transaction, the host can present it, and the decoder reads the command back
(30_encoding.md R82 to R84). -/
def Obligations.DecodeEncodeAgree : Prop :=
  ∀ i : Instr, i.wellFormed = true → i.hostIssuable = true →
    ∃ t, encode i = some t ∧ t.presentable = true ∧ decode t = .ok i

/-- Decoding then encoding: a transaction the decoder accepts is the one transaction of a well-formed
host command; no bit of it is ignored, and no micro-operation is ever decoded (30_encoding.md R83,
R89). -/
def Obligations.EncodeDecodeAgree : Prop :=
  ∀ (t : Transaction) (i : Instr), decode t = .ok i →
    encode i = some t ∧ i.wellFormed = true ∧ i.hostIssuable = true

/-- Every command word is either a command or illegal, and an illegal word, presented, is answered
`InvalidCommand` with no payload and no other change (30_encoding.md R87). The conditions are read off
the word's value: `OP` is its quotient by 2^28, `ARG` the remainder. -/
def Obligations.EveryWordIsCommandOrIllegal : Prop :=
  ∀ (s : State) (t : Transaction) (rest : List HostInput),
    s.inbox = .command t :: rest → t.presentable = true →
    let op := t.word.toNat / 2 ^ 28
    let arg := t.word.toNat % 2 ^ 28
    ((op = 0 ∨ 5 ≤ op ∨ ((op = 1 ∨ op = 2) ∧ arg ≠ 0)) →
      step s = .next { s with inbox := rest, outbox := s.outbox ++ [⟨.invalidCommand, []⟩] }) ∧
    (¬ (op = 0 ∨ 5 ≤ op ∨ ((op = 1 ∨ op = 2) ∧ arg ≠ 0)) →
      ∃ i, decode t = .ok i ∧ i.hostIssuable = true ∧ step s = exec i { s with inbox := rest })

/-- Words of 95_test_vectors.md section 2.1, written out from the opcode map, decode to the commands
listed beside them. -/
def Obligations.SpecCommandWordsDecode : Prop :=
  decode ⟨0x10000000#32, []⟩ = .ok .init128 ∧
  decode ⟨0x20000000#32, []⟩ = .ok .init256 ∧
  decode ⟨0x30000000#32, []⟩ = .ok (.update []) ∧
  decode ⟨0x30000003#32, [0x61#8, 0x62#8, 0x63#8]⟩ = .ok (.update [0x61#8, 0x62#8, 0x63#8]) ∧
  decode ⟨0x40000000#32, []⟩ = .ok (.squeeze 0#28) ∧
  decode ⟨0x403D0900#32, []⟩ = .ok (.squeeze 4000000#28) ∧
  decode ⟨0x4FFFFFFF#32, []⟩ = .ok (.squeeze 268435455#28) ∧
  decode ⟨0x00000000#32, []⟩ = .error .invalidCommand ∧
  decode ⟨0x10000001#32, []⟩ = .error .invalidCommand ∧
  decode ⟨0x2FFFFFFF#32, []⟩ = .error .invalidCommand ∧
  decode ⟨0x80000040#32, []⟩ = .error .invalidCommand

/-- The status codes of the response (30_encoding.md R86). -/
def Obligations.StatusCodesAsListed : Prop :=
  Status.code .ok = 0x00#8 ∧ Status.code .invalidState = 0x01#8 ∧
  Status.code .invalidLength = 0x02#8 ∧ Status.code .invalidCommand = 0x03#8

/-- The legal request descriptors are the eleven R90 lists, and a well-formed request is read back
from its descriptor (30_encoding.md R90). -/
def Obligations.RequestDescriptorsRoundTrip : Prop :=
  (∀ d : BitVec 8, (decodePreq d).isSome = true ↔
    d ∈ [0x80#8, 0x40#8, 0x44#8, 0x10#8, 0x11#8, 0x12#8, 0x13#8, 0x14#8, 0x15#8, 0x16#8, 0x17#8]) ∧
  ∀ q : Preq, q.wellFormed = true → decodePreq (encodePreq q) = some q

/-- A step runs the decoded instruction: when the next host input is a transaction that decodes to `i`,
the step is `exec i` at the state from which that input was taken (30_encoding.md R80). -/
def Obligations.StepRunsDecodedInstruction : Prop :=
  ∀ (s : State) (t : Transaction) (rest : List HostInput) (i : Instr),
    s.inbox = .command t :: rest → decode t = .ok i → step s = exec i { s with inbox := rest }

/-- A well-formed host command, placed by its encoding at the head of the channel, is what the next
step runs; this is the two statements on the encoding carried to the step. -/
def Obligations.StepRunsEncodedInstruction : Prop :=
  ∀ (s : State) (i : Instr) (t : Transaction) (rest : List HostInput),
    i.wellFormed = true → encode i = some t → s.inbox = .command t :: rest →
    step s = exec i { s with inbox := rest }

/-- The MODEL's conventions on the channel (notes/assumptions/5.md and 6.md): with nothing presented
the engine waits and nothing changes; a transaction whose payload is not as long as its word announces
is refused. -/
def Obligations.StepWaitsAndRefusesMalformed : Prop :=
  (∀ s : State, s.inbox = [] → step s = .next s) ∧
  ∀ (s : State) (t : Transaction) (rest : List HostInput), s.inbox = .command t :: rest →
    t.presentable = false → step s = .refused .malformedTransaction

/-! ## Reset -/

/-- The state after power-on reset: `valid`, `mode` and `cursor` as the spec says, nothing presented,
returned or issued (10_state.md R37). The statement is silent on the elements R37 leaves
unspecified. -/
def Obligations.ResetLeavesNoInstance : Prop :=
  State.reset.valid = false ∧ State.reset.mode = .absorbing ∧ State.reset.cursor = 0#11 ∧
  State.reset.inbox = [] ∧ State.reset.outbox = [] ∧ State.reset.trace = []

/-- A power-on reset of a running engine: `valid <- 0`, `mode <- Absorbing`, `cursor <- 0`, no
response, `W` untouched (70_reset_and_hazards.md R260); at the next state, `UPDATE` and `SQUEEZE` fail
with `InvalidState` and change nothing else (70_reset_and_hazards.md R262, 60_exceptions.md R232; the
spec's decision D11). The reset is a host input of its own, the MODEL's form (notes/assumptions/3.md).
Nothing is said of `rate`, `apos`, `S` and `L`. -/
def Obligations.PowerOnResetEndsInstance : Prop :=
  ∀ (s : State) (rest : List HostInput), s.inbox = .powerOn :: rest →
    ∃ t, step s = .next t ∧ t.valid = false ∧ t.mode = .absorbing ∧ t.cursor = 0#11 ∧
      t.outbox = s.outbox ∧ t.inbox = rest ∧ t.width = s.width ∧
      (∀ data, exec (.update data) t =
        .next { t with outbox := t.outbox ++ [⟨.invalidState, []⟩] }) ∧
      ∀ n, exec (.squeeze n) t = .next { t with outbox := t.outbox ++ [⟨.invalidState, []⟩] }

/-! ## INIT128, INIT256 -/

/-- `INIT128` from any state: the whole next state, and `InvalidCommand` with nothing else changed when
`ARG` is not 0 (40_lifecycle.md R101). The empty list is the buffer whose 1600 bytes are 0; the lanes
are stated as well. -/
def Obligations.Init128CreatesInstance : Prop :=
  (∀ s : State, ∃ t, exec .init128 s = .next t ∧
    t = { s with
      rate := 168#8, S := 0#1600, apos := 0#8, cursor := 0#11, mode := .absorbing, buffer := [],
      valid := true, outbox := s.outbox ++ [⟨.ok, []⟩] } ∧
    ∀ j < 8, lane t.width t.buffer j = 0#1600) ∧
  ∀ (s : State) (arg : BitVec 28) (rest : List HostInput), arg ≠ 0#28 →
    s.inbox = .command ⟨1#4 ++ arg, []⟩ :: rest →
    step s = .next { s with inbox := rest, outbox := s.outbox ++ [⟨.invalidCommand, []⟩] }

/-- `INIT256`: the same with rate 136 (40_lifecycle.md R102). -/
def Obligations.Init256CreatesInstance : Prop :=
  (∀ s : State, ∃ t, exec .init256 s = .next t ∧
    t = { s with
      rate := 136#8, S := 0#1600, apos := 0#8, cursor := 0#11, mode := .absorbing, buffer := [],
      valid := true, outbox := s.outbox ++ [⟨.ok, []⟩] } ∧
    ∀ j < 8, lane t.width t.buffer j = 0#1600) ∧
  ∀ (s : State) (arg : BitVec 28) (rest : List HostInput), arg ≠ 0#28 →
    s.inbox = .command ⟨2#4 ++ arg, []⟩ :: rest →
    step s = .next { s with inbox := rest, outbox := s.outbox ++ [⟨.invalidCommand, []⟩] }

/-- An `INIT` is accepted in every state and overwrites everything the previous instance held: two
engines in any two states, of any two widths, hold equal instances after it (40_lifecycle.md R104,
70_reset_and_hazards.md R261). -/
def Obligations.InitErasesPreviousInstance : Prop :=
  ∀ (l : Level) (s s' : State), ∃ t t', exec (initInstr l) s = .next t ∧
    exec (initInstr l) s' = .next t' ∧ snapshot t = snapshot t' ∧ Inv t

/-! ## UPDATE -/

/-- `UPDATE` of an instance in Absorbing mode completes with `OK`: `S` and `apos` are those of the byte
loop of R106, the position stays inside the block, and nothing else is written (the count of scalar
permutations is an observation) (40_lifecycle.md R105, R106). -/
def Obligations.UpdateAbsorbsPayload : Prop :=
  ∀ (s : State) (data : List Byte), s.valid = true → s.mode = .absorbing →
    registersInRange s = true →
    ∃ t, exec (.update data) s = .next t ∧
      (t.S, t.apos.toNat) =
        data.foldl (spongeAbsorbByte s.rate.toNat) (s.S, s.apos.toNat) ∧
      t.apos.toNat < s.rate.toNat ∧
      t = { s with
        S := t.S, apos := t.apos, scalarPerms := t.scalarPerms,
        outbox := s.outbox ++ [⟨.ok, []⟩] }

/-- The number of scalar permutations of one `UPDATE`, and the position after it (40_lifecycle.md
R109). -/
def Obligations.UpdateCountsBlocks : Prop :=
  ∀ (s : State) (data : List Byte), s.valid = true → s.mode = .absorbing →
    registersInRange s = true →
    ∃ t, exec (.update data) s = .next t ∧
      t.scalarPerms = s.scalarPerms + (s.apos.toNat + data.length) / s.rate.toNat ∧
      t.apos.toNat = (s.apos.toNat + data.length) % s.rate.toNat

/-- Splitting law: `UPDATE(a)` then `UPDATE(b)` leaves exactly the state `UPDATE(a ++ b)` leaves, but
for the responses already returned (40_lifecycle.md R108). -/
def Obligations.UpdateSplits : Prop :=
  ∀ (s : State) (a b : List Byte), s.valid = true → s.mode = .absorbing →
    ∃ t u v, exec (.update a) s = .next t ∧ exec (.update b) t = .next u ∧
      exec (.update (a ++ b)) s = .next v ∧
      u = { v with outbox := s.outbox ++ [⟨.ok, []⟩, ⟨.ok, []⟩] } ∧
      v.outbox = s.outbox ++ [⟨.ok, []⟩]

/-- An empty payload: a no-op with `OK` in Absorbing mode, `InvalidState` otherwise (40_lifecycle.md
R107). -/
def Obligations.EmptyUpdateChangesNothing : Prop :=
  (∀ s : State, s.valid = true → s.mode = .absorbing →
    exec (.update []) s = .next { s with outbox := s.outbox ++ [⟨.ok, []⟩] }) ∧
  ∀ s : State, s.valid = false ∨ s.mode = .squeezing →
    exec (.update []) s = .next { s with outbox := s.outbox ++ [⟨.invalidState, []⟩] }

/-- `UPDATE` fails with `InvalidState`, whatever its payload, before any `INIT` and once squeezing has
begun; nothing but the response is written (60_exceptions.md R231, R233, R236). -/
def Obligations.UpdateRejectedOutsideAbsorbing : Prop :=
  ∀ (s : State) (data : List Byte), s.valid = false ∨ s.mode = .squeezing →
    exec (.update data) s = .next { s with outbox := s.outbox ++ [⟨.invalidState, []⟩] }

/-- The state after `INIT` and any `UPDATE`s depends only on the seed, the concatenation of their
payloads: `S` and `apos` are the sponge's after absorbing the seed, and `apos = len(seed) mod rate`
(10_state.md R32 (e)). -/
def Obligations.SeedDeterminesAbsorptionState : Prop :=
  ∀ (s : State) (l : Level) (payloadList : List (List Byte)),
    ∃ t, execAll (initInstr l :: payloadList.map Instr.update) s = .next t ∧
      t.valid = true ∧ t.mode = .absorbing ∧ t.cursor = 0#11 ∧ t.rate.toNat = l.rate ∧
      (t.S, t.apos.toNat) = spongeAbsorb l.rate payloadList.flatten ∧
      t.apos.toNat = payloadList.flatten.length % l.rate

/-! ## FINALIZE, EXPAND -/

/-- `FINALIZE` on any state leaves everything unchanged (41_lane_expansion.md R121). -/
def Obligations.FinalizeChangesNothing : Prop := ∀ s : State, exec .finalize s = .next s

/-- `EXPAND` in Absorbing mode completes: each lane is `S` with its index at `apos`, permuted first if
that byte fills the block, then with suffix and padding, then permuted; `cursor` is 0, the mode is
Squeezing, and nothing else but the trace is written (41_lane_expansion.md R123 to R128). -/
def Obligations.ExpandPreparesLanes : Prop :=
  ∀ s : State, s.mode = .absorbing → registersInRange s = true →
    ∃ t, exec .expand s = .next t ∧
      (∀ j < 8,
        let b := s.S.xorByte s.apos.toNat (BitVec.ofNat 8 j)
        lane t.width t.buffer j =
          if s.apos.toNat + 1 = s.rate.toNat then
            keccakP (((keccakP b).xorByte 0 0x1F#8).xorByte (s.rate.toNat - 1) 0x80#8)
          else
            keccakP ((b.xorByte (s.apos.toNat + 1) 0x1F#8).xorByte (s.rate.toNat - 1) 0x80#8)) ∧
      t = { s with
        buffer := t.buffer, trace := t.trace, cursor := 0#11, mode := .squeezing }

/-- What `EXPAND` establishes: if `S` is the absorption state of a seed, every lane `i` is the sponge
state of `SHAKE(level, seed ++ [i])` when its first `rate` bytes are available, and those bytes are
the stream's (41_lane_expansion.md R129). -/
def Obligations.ExpandEstablishesShakeLanes : Prop :=
  ∀ (s : State) (l : Level) (seed : List Byte), s.mode = .absorbing →
    registersInRange s = true → s.rate.toNat = l.rate →
    spongeAbsorb l.rate seed = (s.S, s.apos.toNat) →
    ∃ t, exec .expand s = .next t ∧
      ∀ i < 8, lane t.width t.buffer i = spongeState l.rate (laneMessage seed i) 0 ∧
        ∀ b < l.rate, (lane t.width t.buffer i).byte b = shakeByte l (laneMessage seed i) b

/-- A second Lane Expansion: `EXPAND` in Squeezing mode gives `InvalidState` and changes nothing
(60_exceptions.md R235, 41_lane_expansion.md R130). -/
def Obligations.ExpandGuardsAgainstSecondRun : Prop :=
  ∀ s : State, s.mode = .squeezing →
    exec .expand s = .next { s with outbox := s.outbox ++ [⟨.invalidState, []⟩] }

/-- The batches of one `EXPAND`: two if `apos = rate − 1` on entry, else one, each of `8/W` requests
(41_lane_expansion.md R131). -/
def Obligations.ExpandCountsBatches : Prop :=
  ∀ s : State, s.mode = .absorbing → registersInRange s = true →
    ∃ t, exec .expand s = .next t ∧
      ((requests s.width).map encodePreq).length = 8 / s.width.lanes ∧
      t.trace = s.trace ++ (List.replicate
        (if s.apos.toNat = s.rate.toNat - 1 then 2 else 1)
        ((requests s.width).map encodePreq)).flatten

/-! ## PERMALL and the layout -/

/-- The layout: each `P_W` is a bijection from `{0..7} × {0..24}` onto `{0..199}`, and a lane's byte is
the buffer byte at `8·P_W(j, b div 8) + (b mod 8)` (20_memory.md R55). -/
def Obligations.LayoutIsBijection : Prop :=
  (∀ j w, wordIndex .w8 j w = 8 * w + j ∧
    wordIndex .w4 j w = 100 * (j / 4) + 4 * w + j % 4 ∧ wordIndex .w1 j w = 25 * j + w) ∧
  (∀ W : VectorWidth, ∀ p < 200, ∃ j w, (j < 8 ∧ w < 25 ∧ wordIndex W j w = p) ∧
    ∀ j' w', j' < 8 → w' < 25 → wordIndex W j' w' = p → j' = j ∧ w' = w) ∧
  (∀ (W : VectorWidth) (j w : Nat), j < 8 → w < 25 → wordIndex W j w < 200) ∧
  ∀ (W : VectorWidth) (m : Memory) (j b : Nat), j < 8 → b < 200 →
    (lane W m j).byte b = m.read (8 * wordIndex W j (b / 8) + b % 8)

/-- `PERMALL` replaces every lane by its permutation, the same at every `W`, and writes nothing but the
buffer and the trace (42_permutation_scheduler.md R141, R142). -/
def Obligations.PermallPermutesEveryLane : Prop :=
  ∀ s : State, ∃ t, exec .permall s = .next t ∧
    (∀ j < 8, lane t.width t.buffer j = keccakP (lane s.width s.buffer j)) ∧
    t = { s with buffer := t.buffer, trace := t.trace }

/-- The requests one `PermuteAllLanes()` issues, by width, in issue order, and the lanes each of them
permutes (42_permutation_scheduler.md R143). -/
def Obligations.PermallIssuesRequests : Prop :=
  (∀ s : State, ∃ t, exec .permall s = .next t ∧
    t.trace = s.trace ++
      match s.width with
      | .w8 => [0x80#8]
      | .w4 => [0x40#8, 0x44#8]
      | .w1 => [0x10#8, 0x11#8, 0x12#8, 0x13#8, 0x14#8, 0x15#8, 0x16#8, 0x17#8]) ∧
  ∀ (W : VectorWidth) (q : Preq) (m : Memory) (j : Nat), q ∈ requests W → j < 8 →
    lane W (permuteRequest q m) j =
      if q.base ≤ j ∧ j < q.base + W.lanes then keccakP (lane W m j) else lane W m j

/-- What one request touches: the `200·W` bytes from byte `200·BASE` on, in which word `w` of its
`k`-th state is word `W·w + k` of the region; every other byte of the buffer reads as before
(42_permutation_scheduler.md R144). -/
def Obligations.RequestTouchesItsRegion : Prop :=
  ∀ (q : Preq) (m : Memory), q.wellFormed = true →
    (∀ a, a < 200 * q.base ∨ 200 * q.base + 200 * q.width.lanes ≤ a →
      (permuteRequest q m).read a = m.read a) ∧
    ∀ k b, k < q.width.lanes → b < 200 →
      (permuteRequest q m).read (200 * q.base + 8 * (q.width.lanes * (b / 8) + k) + b % 8) =
        (keccakP (lane q.width m (q.base + k))).byte b

/-! ## SQUEEZE -/

/-- `SQUEEZE` before any `INIT` is `InvalidState` whatever its length, also a misaligned one, with
nothing else changed (60_exceptions.md R232, R239). -/
def Obligations.SqueezeRejectedBeforeInit : Prop :=
  ∀ (s : State) (n : BitVec 28), s.valid = false →
    exec (.squeeze n) s = .next { s with outbox := s.outbox ++ [⟨.invalidState, []⟩] }

/-- The length check: on an initialised instance, in every mode and for every rate and cursor, a length
that is not a multiple of 64 gives `InvalidLength` and changes nothing (60_exceptions.md R234,
43_parallel_squeeze.md R162). -/
def Obligations.SqueezeRejectsMisalignedLength : Prop :=
  ∀ (s : State) (n : BitVec 28), s.valid = true → n.toNat % 64 ≠ 0 →
    exec (.squeeze n) s = .next { s with outbox := s.outbox ++ [⟨.invalidLength, []⟩] }

/-- `SQUEEZE` in Squeezing mode completes with `OK` and exactly `n` bytes. Byte `k` is byte `u =
cursor + k` counted from the start of the current super-block: the lane and lane byte the canonical
order names for `u mod 8·rate`, in the lanes permuted `u div 8·rate` times more; the lanes left are
permuted as often as R172 counts, and nothing else but `cursor` and the trace is written
(43_parallel_squeeze.md R160, R163, R166, R172). -/
def Obligations.SqueezeDeliversStream : Prop :=
  ∀ (s : State) (n : BitVec 28), s.valid = true → n.toNat % 64 = 0 → s.mode = .squeezing →
    registersInRange s = true →
    ∃ t out, exec (.squeeze n) s = .next t ∧ out.length = n.toNat ∧
      (∀ k < n.toNat,
        let u := s.cursor.toNat + k
        let c := u % (8 * s.rate.toNat)
        out[k]? = some ((keccakP^[u / (8 * s.rate.toNat)]
          (lane s.width s.buffer (c / 8 % 8))).byte (8 * (c / 64) + c % 8))) ∧
      (∀ j < 8, lane t.width t.buffer j =
        keccakP^[if n.toNat = 0 then 0 else (s.cursor.toNat + n.toNat - 1) / (8 * s.rate.toNat)]
          (lane s.width s.buffer j)) ∧
      t = { s with
        buffer := t.buffer, trace := t.trace, cursor := t.cursor,
        outbox := s.outbox ++ [⟨.ok, out⟩] }

/-- The first squeeze runs `EXPAND` and then delivers: in Absorbing mode `SQUEEZE(n)` is `EXPAND`
followed by `SQUEEZE(n)` in Squeezing mode (43_parallel_squeeze.md R161, 41_lane_expansion.md
R120). -/
def Obligations.FirstSqueezeExpands : Prop :=
  ∀ (s : State) (n : BitVec 28), s.valid = true → n.toNat % 64 = 0 → s.mode = .absorbing →
    ∃ u t, exec .expand s = .next u ∧ u.mode = .squeezing ∧ u.valid = true ∧
      (registersInRange s = true → registersInRange u = true) ∧
      exec (.squeeze n) s = .next t ∧ exec (.squeeze n) u = .next t

/-- Counting: the re-permutations of one delivery and the cursor after it, `8·rate` and not 0 at the
end of a super-block; `c` is the cursor before, or 0 if this `SQUEEZE` runs `EXPAND`
(43_parallel_squeeze.md R172). -/
def Obligations.SqueezeCountsRepermutations : Prop :=
  ∀ (s : State) (n : BitVec 28), s.valid = true → n.toNat % 64 = 0 → registersInRange s = true →
    let T := 8 * s.rate.toNat
    let c := if s.mode = .absorbing then 0 else s.cursor.toNat
    let e := if s.mode = .absorbing then (if s.apos.toNat = s.rate.toNat - 1 then 2 else 1) else 0
    ∃ t, exec (.squeeze n) s = .next t ∧ t.mode = .squeezing ∧
      t.cursor.toNat = (if n.toNat = 0 then c else (c + n.toNat - 1) % T + 1) ∧
      t.trace = s.trace ++ (List.replicate
        (e + if n.toNat = 0 then 0 else (c + n.toNat - 1) / T)
        ((requests s.width).map encodePreq)).flatten

/-- The re-permutation is lazy: a `SQUEEZE` that ends exactly at the end of a super-block leaves
`cursor = 8·rate` and does not permute, and the next one with `n > 0` does, once, before its first
byte (43_parallel_squeeze.md R164, R174). -/
def Obligations.RepermutationIsLazy : Prop :=
  (∀ (s : State) (n : BitVec 28), s.valid = true → s.mode = .squeezing →
    registersInRange s = true → n.toNat % 64 = 0 → 0 < n.toNat →
    s.cursor.toNat + n.toNat = 8 * s.rate.toNat →
    ∃ t, exec (.squeeze n) s = .next t ∧ t.cursor.toNat = 8 * s.rate.toNat ∧
      t.buffer = s.buffer ∧ t.trace = s.trace) ∧
  ∀ (s : State) (n : BitVec 28), s.valid = true → s.mode = .squeezing →
    registersInRange s = true → n.toNat % 64 = 0 → 0 < n.toNat → n.toNat ≤ 8 * s.rate.toNat →
    s.cursor.toNat = 8 * s.rate.toNat →
    ∃ p t v, exec .permall s = .next p ∧ exec (.squeeze n) s = .next t ∧
      exec (.squeeze n) { p with cursor := 0#11 } = .next v ∧ t = v ∧
      t.cursor.toNat = n.toNat ∧ t.buffer = p.buffer

/-- `SQUEEZE` of length 0 is legal: no byte, no re-permutation, the cursor unchanged; in Absorbing mode
it runs `EXPAND`, and a later `UPDATE` fails with `InvalidState` (43_parallel_squeeze.md R169). -/
def Obligations.SqueezeZeroExpandsOnly : Prop :=
  (∀ s : State, s.valid = true → s.mode = .squeezing →
    exec (.squeeze 0#28) s = .next { s with outbox := s.outbox ++ [⟨.ok, []⟩] }) ∧
  ∀ s : State, s.valid = true → s.mode = .absorbing →
    ∃ u, exec .expand s = .next u ∧ u.mode = .squeezing ∧ u.cursor = 0#11 ∧
      exec (.squeeze 0#28) s = .next { u with outbox := s.outbox ++ [⟨.ok, []⟩] } ∧
      ∀ data, exec (.update data) { u with outbox := s.outbox ++ [⟨.ok, []⟩] } =
        .next { u with outbox := s.outbox ++ [⟨.ok, []⟩, ⟨.invalidState, []⟩] }

/-- The canonical order: within the current super-block, the byte delivered at canonical offset `c` is
`L[(c div 8) mod 8][8·((c div 8) div 8) + (c mod 8)]`, the buffer byte at that lane byte's physical
address, and no byte of the buffer changes (43_parallel_squeeze.md R166, 20_memory.md R57). -/
def Obligations.SerializerFollowsCanonicalOrder : Prop :=
  ∀ (s : State) (n : BitVec 28), s.valid = true → n.toNat % 64 = 0 → s.mode = .squeezing →
    registersInRange s = true → s.cursor.toNat + n.toNat ≤ 8 * s.rate.toNat →
    ∃ t out, exec (.squeeze n) s = .next t ∧ t.outbox = s.outbox ++ [⟨.ok, out⟩] ∧
      out.length = n.toNat ∧ t.buffer = s.buffer ∧
      ∀ k < n.toNat,
        let c := s.cursor.toNat + k
        out[k]? = some ((lane s.width s.buffer (c / 8 % 8)).byte (8 * (c / 8 / 8) + c % 8)) ∧
        out[k]? = some
          (s.buffer.read (8 * wordIndex s.width (c / 8 % 8) (c / 8 / 8) + c % 8))

/-- At width 8 extraction "is a direct read in canonical order": the physical address of canonical
offset `c` is `c` itself; at every width it is inside the buffer, and two offsets never share one
(20_memory.md R57, 43_parallel_squeeze.md R167). -/
def Obligations.Width8ReadsDirectly : Prop :=
  (∀ c, canonicalAddr .w8 c = c) ∧
  (∀ (W : VectorWidth) (c : Nat), c < 1344 → canonicalAddr W c < 1600) ∧
  ∀ (W : VectorWidth) (c c' : Nat), c < 1344 → c' < 1344 →
    canonicalAddr W c = canonicalAddr W c' → c = c'

/-- The capacity part is never delivered: two instances whose lanes agree on the first `rate` bytes,
and which may differ in every other lane byte, answer a `SQUEEZE` inside the current super-block
alike, also at different widths (20_memory.md R59). -/
def Obligations.CapacityNeverDelivered : Prop :=
  ∀ (s s' : State) (n : BitVec 28), s.valid = true → s'.valid = true → s.mode = .squeezing →
    s'.mode = .squeezing → registersInRange s = true → s.rate = 168#8 ∨ s.rate = 136#8 →
    s.rate = s'.rate → s.cursor = s'.cursor → n.toNat % 64 = 0 →
    s.cursor.toNat + n.toNat ≤ 8 * s.rate.toNat →
    (∀ j < 8, ∀ b < s.rate.toNat,
      (lane s.width s.buffer j).byte b = (lane s'.width s'.buffer j).byte b) →
    ∃ t t' out, exec (.squeeze n) s = .next t ∧ exec (.squeeze n) s' = .next t' ∧
      t.outbox = s.outbox ++ [⟨.ok, out⟩] ∧ t'.outbox = s'.outbox ++ [⟨.ok, out⟩]

/-- Composability law: for any sequence of calls whose lengths are multiples of 64, the concatenation
of their outputs equals the output of one call of the total length, and the final state is the same
(43_parallel_squeeze.md R170). -/
def Obligations.SqueezeComposes : Prop :=
  ∀ (s : State) (lengths : List (BitVec 28)) (total : BitVec 28), s.valid = true →
    registersInRange s = true → lengths ≠ [] → (∀ n ∈ lengths, n.toNat % 64 = 0) →
    (lengths.map BitVec.toNat).sum = total.toNat →
    ∃ u v responses out, execAll (lengths.map Instr.squeeze) s = .next u ∧
      exec (.squeeze total) s = .next v ∧
      u.outbox = s.outbox ++ responses ∧ v.outbox = s.outbox ++ [⟨.ok, out⟩] ∧
      (∀ r ∈ responses, r.status = .ok) ∧
      responses.map (fun r => r.payload.length) = lengths.map BitVec.toNat ∧
      payloads responses = out ∧ u = { v with outbox := s.outbox ++ responses }

/-- After a `SQUEEZE` that returned `OK`, `UPDATE` fails with `InvalidState` and leaves the instance
unchanged; a `SQUEEZE` that failed with `InvalidLength` left the mode Absorbing, and a following
`UPDATE` is accepted (40_lifecycle.md R110). -/
def Obligations.UpdateAfterSqueezeRejected : Prop :=
  (∀ (s : State) (n : BitVec 28) (data : List Byte), s.valid = true → n.toNat % 64 = 0 →
    ∃ t, exec (.squeeze n) s = .next t ∧
      exec (.update data) t = .next { t with outbox := t.outbox ++ [⟨.invalidState, []⟩] }) ∧
  ∀ (s : State) (n : BitVec 28) (data : List Byte), s.valid = true → s.mode = .absorbing →
    n.toNat % 64 ≠ 0 →
    ∃ t u, exec (.squeeze n) s = .next t ∧ t.mode = .absorbing ∧ exec (.update data) t = .next u ∧
      u.outbox = s.outbox ++ [⟨.invalidLength, []⟩, ⟨.ok, []⟩]

/-! ## The whole machine -/

/-- The invariants hold after power-on reset. -/
def Obligations.ResetMeetsInvariants : Prop := Inv State.reset

/-- Every step keeps the invariants of 10_state.md R31 to R33, and the buffer's canonical form, from
every state that meets them. -/
def Obligations.StepKeepsInvariants : Prop :=
  ∀ s t : State, Inv s → step s = .next t → Inv t

/-- No lock-up: from a state that meets the invariants, with transactions the host can present, every
step ends in a next state of the same kind; no error is sticky (60_exceptions.md R238). -/
def Obligations.EngineNeverStops : Prop :=
  ∀ s : State, Inv s → inboxPresentable s →
    ∃ t, step s = .next t ∧ Inv t ∧ inboxPresentable t ∧ t.inbox = s.inbox.tail

/-- Error entry: a step whose response is an error has written no element of the instance, nor the
trace, and the response has no payload (60_exceptions.md R236). -/
def Obligations.ErrorsChangeNothing : Prop :=
  ∀ (s t : State) (r : Response), step s = .next t → t.outbox = s.outbox ++ [r] →
    r.status ≠ .ok →
    r.payload = [] ∧ t = { s with inbox := s.inbox.tail, outbox := s.outbox ++ [r] }

/-- One response per command, with exactly `ARG` payload bytes for a successful `SQUEEZE` and none for
any other command (60_exceptions.md R244, 30_encoding.md R80, R83). -/
def Obligations.OneResponsePerCommand : Prop :=
  ∀ (s t : State) (x : Transaction) (rest : List HostInput), s.inbox = .command x :: rest →
    step s = .next t →
    ∃ r, t.outbox = s.outbox ++ [r] ∧ t.inbox = rest ∧
      r.payload.length =
        if r.status = .ok ∧ x.word.toNat / 2 ^ 28 = 4 then x.word.toNat % 2 ^ 28 else 0

/-- Only a new `INIT` returns the instance to Absorbing, and an instance never ceases to exist by a
command (10_state.md R25, R26). -/
def Obligations.OnlyInitLeavesSqueezing : Prop :=
  ∀ (i : Instr) (s t : State), exec i s = .next t →
    (s.mode = .squeezing → t.mode = .absorbing → i = .init128 ∨ i = .init256) ∧
    (s.valid = true → t.valid = true) ∧
    (s.valid = false → t.valid = true → i = .init128 ∨ i = .init256)

/-- Which instructions write which element: `rate` only the two `INIT`s, `S` and `apos` also `UPDATE`,
`cursor` and `mode` the `INIT`s, `EXPAND` and `SQUEEZE`, the lanes also `PERMALL`; `W` is written by
none, nor are the host's inputs (10_state.md R21, R23, R24, R25, R28, R29;
42_permutation_scheduler.md R148). -/
def Obligations.WritersOfEachElement : Prop :=
  ∀ (i : Instr) (s t : State), exec i s = .next t →
    (t.rate ≠ s.rate → i = .init128 ∨ i = .init256) ∧
    (t.S ≠ s.S ∨ t.apos ≠ s.apos ∨ t.scalarPerms ≠ s.scalarPerms →
      i = .init128 ∨ i = .init256 ∨ ∃ data, i = .update data) ∧
    (t.cursor ≠ s.cursor ∨ t.mode ≠ s.mode →
      i = .init128 ∨ i = .init256 ∨ i = .expand ∨ ∃ n, i = .squeeze n) ∧
    (t.buffer ≠ s.buffer →
      i = .init128 ∨ i = .init256 ∨ i = .expand ∨ i = .permall ∨ ∃ n, i = .squeeze n) ∧
    (t.trace ≠ s.trace → i = .expand ∨ i = .permall ∨ ∃ n, i = .squeeze n) ∧
    t.width = s.width ∧ t.inbox = s.inbox ∧ t.resets = s.resets

/-- No output in Absorbing mode: only `SQUEEZE` returns output bytes, and only with the mode Squeezing
after it (43_parallel_squeeze.md R176). -/
def Obligations.NoOutputWhileAbsorbing : Prop :=
  ∀ (i : Instr) (s t : State) (r : Response), exec i s = .next t → t.outbox = s.outbox ++ [r] →
    r.payload ≠ [] → (∃ n, i = .squeeze n) ∧ t.mode = .squeezing ∧ t.valid = true

/-- Cross-width equivalence: two engines of any widths with equal instances answer every instruction
alike and hold equal instances after it (42_permutation_scheduler.md R145, 10_state.md R34). -/
def Obligations.CrossWidthEquivalence : Prop :=
  ∀ (i : Instr) (s s' t : State), snapshot s = snapshot s' → exec i s = .next t →
    ∃ t' responses, exec i s' = .next t' ∧ snapshot t = snapshot t' ∧
      t.outbox = s.outbox ++ responses ∧ t'.outbox = s'.outbox ++ responses

/-- Determinism from an `INIT` on: whatever the two engines held before and whatever their widths, the
same commands after the same `INIT` get the same responses and leave equal instances
(44_reference_stream.md R196, R198; 40_lifecycle.md R104). -/
def Obligations.InitHistoryAndWidthInvisible : Prop :=
  ∀ (l : Level) (commands : List Instr) (s s' : State),
    (∀ i ∈ commands, i.hostIssuable = true) →
    ∃ t t' responses, execAll (initInstr l :: commands) s = .next t ∧
      execAll (initInstr l :: commands) s' = .next t' ∧ snapshot t = snapshot t' ∧
      t.outbox = s.outbox ++ responses ∧ t'.outbox = s'.outbox ++ responses

/-- The engine refines the ideal generator: from a state that stands for an ideal instance (or for
none), every host command, also one that fails, completes, answers with the ideal response, whose
bytes are those of the output stream in closed form, and leaves a state that stands for the next ideal
instance (44_reference_stream.md R192, R194; 10_state.md R32 (e), (f)). -/
def Obligations.RefinesIdealGenerator : Prop :=
  ∀ (i : Instr) (s : State) (a : Option Ideal), i.hostIssuable = true → Simulates s a →
    ∃ t, exec i s = .next t ∧ Simulates t (idealStep i a).1 ∧
      t.outbox = s.outbox ++ [(idealStep i a).2]

/-- Conformance contract: for any seed, however it is split into `UPDATE`s, any partition into
`SQUEEZE` calls, and any width (that of `s`), the output is byte-identical to the sequential
reference's for the same seed and total length (44_reference_stream.md R193). -/
def Obligations.ConformsToSequentialReference : Prop :=
  ∀ (s : State) (l : Level) (payloadList : List (List Byte)) (lengths : List (BitVec 28)),
    (∀ n ∈ lengths, n.toNat % 64 = 0) →
    ∃ t responses,
      execAll (initInstr l :: (payloadList.map Instr.update ++ lengths.map Instr.squeeze)) s =
        .next t ∧
      t.outbox = s.outbox ++ responses ∧ (∀ r ∈ responses, r.status = .ok) ∧
      payloads responses = reference l payloadList.flatten (lengths.map BitVec.toNat).sum

/-- The request trace of a run from an `INIT` on: `e + 1 + (Σn − 1) div (8·rate)` times the requests of
one `PermuteAllLanes()`, `e + 1` times for successful squeezes of total length 0, and none without a
squeeze (42_permutation_scheduler.md R149). -/
def Obligations.RunCountsPermutations : Prop :=
  ∀ (s : State) (l : Level) (payloadList : List (List Byte)) (lengths : List (BitVec 28)),
    (∀ n ∈ lengths, n.toNat % 64 = 0) →
    let total := (lengths.map BitVec.toNat).sum
    let e := if payloadList.flatten.length % l.rate = l.rate - 1 then 1 else 0
    ∃ t, execAll (initInstr l :: (payloadList.map Instr.update ++ lengths.map Instr.squeeze)) s =
        .next t ∧
      ((requests s.width).map encodePreq).length = 8 / s.width.lanes ∧
      t.trace = s.trace ++ (List.replicate
        (if lengths = [] then 0
          else if total = 0 then e + 1
          else e + 1 + (total - 1) / (8 * l.rate))
        ((requests s.width).map encodePreq)).flatten

/-- No instruction stops, on any operands and in any state: there is no fatal error, and every error is
a response (60_exceptions.md R236, R238). That an instruction runs also on registers outside their legal
values is the MODEL's choice (notes/assumptions/4.md). A step stops only on a transaction the host cannot
present, the MODEL's reading (notes/assumptions/6.md). -/
def Obligations.NoInstructionStops : Prop :=
  (∀ (i : Instr) (s : State), ∃ t, exec i s = .next t) ∧
  ∀ s : State, (∀ t rest, s.inbox = .command t :: rest → t.presentable = true) →
    ∃ t, step s = .next t

/-- Whatever the registers hold, also outside their legal values (there the MODEL's choice,
notes/assumptions/4.md), `UPDATE`, `EXPAND` and `SQUEEZE`, past their own checks, complete, with their
frame, status and output length: `UPDATE` writes nothing but `S`, `apos` and the count of scalar
permutations, and returns `OK`; `EXPAND` writes nothing but the buffer, the trace, `cursor`, which is 0
after it, and the mode, which is Squeezing; `SQUEEZE` writes nothing but the buffer, the trace, `cursor`
and the mode, which is Squeezing, and returns `OK` with exactly `n` bytes (40_lifecycle.md R105,
41_lane_expansion.md R122, 43_parallel_squeeze.md R160). The values left in `S`, `apos`, the buffer,
the trace and (for `SQUEEZE`) `cursor`, and the bytes returned, are not stated here. -/
def Obligations.CommandsCompleteOnAnyRegisters : Prop :=
  (∀ (s : State) (data : List Byte), s.valid = true → s.mode = .absorbing →
    ∃ t, exec (.update data) s = .next t ∧
      t = { s with
        S := t.S, apos := t.apos, scalarPerms := t.scalarPerms,
        outbox := s.outbox ++ [⟨.ok, []⟩] }) ∧
  (∀ s : State, s.mode = .absorbing →
    ∃ t, exec .expand s = .next t ∧
      t = { s with buffer := t.buffer, trace := t.trace, cursor := 0#11, mode := .squeezing }) ∧
  ∀ (s : State) (n : BitVec 28), s.valid = true → n.toNat % 64 = 0 →
    ∃ t out, exec (.squeeze n) s = .next t ∧ out.length = n.toNat ∧
      t = { s with
        buffer := t.buffer, trace := t.trace, cursor := t.cursor, mode := .squeezing,
        outbox := s.outbox ++ [⟨.ok, out⟩] }

/-- Where the words of the rules give a value on registers outside their legal values, that value results
(the MODEL's choice, notes/assumptions/4.md); legal registers are covered as well. `UPDATE` of one byte at
`apos` below 200 exclusive-ors it into `S` there, permutes `S` and zeroes `apos` if the byte fills the
block, and steps `apos` otherwise (40_lifecycle.md R106). `EXPAND` leaves each lane as R123 says where the
positions it writes are below 200 (41_lane_expansion.md R123). `SQUEEZE` inside the super-block and
inside the lanes' 200 bytes delivers the bytes of R57's formula, advances `cursor`, and permutes nothing
(20_memory.md R57, 43_parallel_squeeze.md R163). -/
def Obligations.RulesFollowedBeyondLegalRegisters : Prop :=
  (∀ (s : State) (x : Byte), s.valid = true → s.mode = .absorbing → s.apos.toNat < 200 →
    exec (.update [x]) s = .next
      (if s.apos.toNat + 1 = s.rate.toNat then
        { s with
          S := keccakP (s.S.xorByte s.apos.toNat x), apos := 0#8,
          scalarPerms := s.scalarPerms + 1, outbox := s.outbox ++ [⟨.ok, []⟩] }
      else
        { s with
          S := s.S.xorByte s.apos.toNat x, apos := s.apos + 1#8,
          outbox := s.outbox ++ [⟨.ok, []⟩] })) ∧
  (∀ s : State, s.mode = .absorbing → 0 < s.rate.toNat → s.rate.toNat ≤ 200 →
    s.apos.toNat < 200 → (s.apos.toNat = 199 → s.rate.toNat = 200) →
    ∃ t, exec .expand s = .next t ∧
      ∀ j < 8,
        let b := s.S.xorByte s.apos.toNat (BitVec.ofNat 8 j)
        lane t.width t.buffer j =
          if s.apos.toNat + 1 = s.rate.toNat then
            keccakP (((keccakP b).xorByte 0 0x1F#8).xorByte (s.rate.toNat - 1) 0x80#8)
          else
            keccakP ((b.xorByte (s.apos.toNat + 1) 0x1F#8).xorByte (s.rate.toNat - 1) 0x80#8)) ∧
  ∀ (s : State) (n : BitVec 28), s.valid = true → s.mode = .squeezing → n.toNat % 64 = 0 →
    s.cursor.toNat < 8 * s.rate.toNat → s.cursor.toNat + n.toNat ≤ 8 * s.rate.toNat →
    s.cursor.toNat + n.toNat ≤ 1600 →
    ∃ t out, exec (.squeeze n) s = .next t ∧ out.length = n.toNat ∧
      (∀ k < n.toNat,
        let c := s.cursor.toNat + k
        out[k]? = some ((lane s.width s.buffer (c / 8 % 8)).byte (8 * (c / 64) + c % 8))) ∧
      t.cursor.toNat = s.cursor.toNat + n.toNat ∧
      t = { s with cursor := t.cursor, outbox := s.outbox ++ [⟨.ok, out⟩] }

/-- What reads `cursor`, `apos` and `S`, over all instructions and all states: while the mode is Absorbing
no instruction reads `cursor`, and in no mode one other than `SQUEEZE`; in Squeezing mode no instruction
reads `apos` or `S`, nor, in any mode, does an `INIT`, `FINALIZE`, `PERMALL`, or an `UPDATE` or
`SQUEEZE` that fails. Any other value of them changes nothing else of what the instruction does: it is
overwritten or kept. Which of the two it is, is said for `UPDATE`, `EXPAND` and `SQUEEZE` (10_state.md
R24, R28, R29). -/
def Obligations.ReadersOfCursorAposS : Prop :=
  (∀ (i : Instr) (s : State), (s.mode = .absorbing ∨ ∀ n, i ≠ .squeeze n) → ignoresCursor i s) ∧
  (∀ (i : Instr) (s : State),
    (s.mode = .squeezing ∨ i = .init128 ∨ i = .init256 ∨ i = .finalize ∨ i = .permall ∨
      (∃ data, i = .update data ∧ s.valid = false) ∨
      ∃ n, i = .squeeze n ∧ (s.valid = false ∨ n.toNat % 64 ≠ 0)) →
    ignoresAposS i s) ∧
  (∀ (s : State) (data : List Byte) (c : BitVec 11), s.mode = .absorbing →
    ∃ t, exec (.update data) s = .next t ∧
      exec (.update data) { s with cursor := c } = .next { t with cursor := c }) ∧
  (∀ (s : State) (c : BitVec 11), s.mode = .absorbing →
    exec .expand { s with cursor := c } = exec .expand s) ∧
  (∀ (s : State) (n : BitVec 28) (c : BitVec 11), s.mode = .absorbing → s.valid = true →
    n.toNat % 64 = 0 → exec (.squeeze n) { s with cursor := c } = exec (.squeeze n) s) ∧
  ∀ (s : State) (n : BitVec 28) (a : BitVec 8) (v : PState), s.mode = .squeezing →
    ∃ t, exec (.squeeze n) s = .next t ∧
      exec (.squeeze n) { s with apos := a, S := v } = .next { t with apos := a, S := v }

/-- One round of the permutation is θ, ρ and π, χ, ι as written, with column sums `C` and `D`, and
`B[y, 2x+3y] = rol64(A[x,y], ROT[x,y])`; `KeccakP` is the 24 rounds in the order of `RC`
(45_external_primitives.md R211). Indices modulo 5, so `x − 1` is `x + 4`. -/
def Obligations.KeccakRoundFollowsRule : Prop :=
  (∀ (s : PState) (rc : Word), ∃ C D : Nat → Word, ∃ A B : Nat → Nat → Word,
    (∀ x < 5, C x = s.word x ^^^ s.word (x + 5) ^^^ s.word (x + 10) ^^^ s.word (x + 15) ^^^
      s.word (x + 20)) ∧
    (∀ x < 5, D x = C ((x + 4) % 5) ^^^ (C ((x + 1) % 5)).rotateLeft 1) ∧
    (∀ x < 5, ∀ y < 5, A x y = s.word (x + 5 * y) ^^^ D x) ∧
    (∀ x < 5, ∀ y < 5, B y ((2 * x + 3 * y) % 5) = (A x y).rotateLeft (keccakRot x y)) ∧
    ∀ x < 5, ∀ y < 5, (keccakRound s rc).word (x + 5 * y) =
      B x y ^^^ (~~~(B ((x + 1) % 5) y) &&& B ((x + 2) % 5) y) ^^^
        (if x = 0 ∧ y = 0 then rc else 0#64)) ∧
  keccakRC.length = 24 ∧ ∀ s : PState, keccakP s = keccakRC.foldl keccakRound s
end

