-- ==== Sys2Proof/Laws/Bits.lean ====
section
/-! SUPPORT. The byte and word views of a permutation state: reading back what was packed or
exclusive-ored, and equality byte by byte. -/

namespace Sys2Proof

theorem PState.byte_getLsbD (s : PState) (b i : Nat) :
    (s.byte b).getLsbD i = (decide (i < 8) && s.getLsbD (8 * b + i)) := by
  simp [PState.byte, BitVec.getLsbD_extractLsb']

/-- Two states with the same 200 bytes are the same state. -/
theorem PState.ext_bytes {s t : PState} (h : ∀ b < 200, s.byte b = t.byte b) : s = t := by
  apply BitVec.eq_of_getLsbD_eq
  intro i hi
  have hb : (s.byte (i / 8)).getLsbD (i % 8) = (t.byte (i / 8)).getLsbD (i % 8) := by
    rw [h (i / 8) (by omega)]
  have e : 8 * (i / 8) + i % 8 = i := by omega
  have h8 : i % 8 < 8 := Nat.mod_lt i (by decide)
  rw [PState.byte_getLsbD, PState.byte_getLsbD, e, decide_eq_true h8, Bool.true_and,
    Bool.true_and] at hb
  exact hb

theorem packBytes_getLsbD (f : Nat → Byte) (n i : Nat) (hn : n ≤ 200) :
    (packBytes f n).getLsbD i = (decide (i < 8 * n) && (f (i / 8)).getLsbD (i % 8)) := by
  induction n with
  | zero => simp [packBytes]
  | succ n ih =>
    rw [packBytes, BitVec.getLsbD_or, ih (by omega), BitVec.getLsbD_shiftLeft,
      BitVec.getLsbD_setWidth]
    rcases Nat.lt_trichotomy (i / 8) n with h | h | h
    · have h1 : i < 8 * n := by omega
      have h2 : i < 8 * (n + 1) := by omega
      simp [h1, h2]
    · have h1 : ¬ i < 8 * n := by omega
      have h2 : i < 8 * (n + 1) := by omega
      have h3 : i < 1600 := by omega
      have h4 : i - 8 * n = i % 8 := by omega
      have h5 : i % 8 < 1600 := by omega
      simp [h1, h2, h3, h4, h, h5]
    · have h1 : ¬ i < 8 * n := by omega
      have h2 : ¬ i < 8 * (n + 1) := by omega
      have h3 : (f n).getLsbD (i - 8 * n) = false := BitVec.getLsbD_of_ge _ _ (by omega)
      simp [h1, h2, h3]

theorem PState.byte_ofBytes (f : Nat → Byte) {b : Nat} (hb : b < 200) :
    (PState.ofBytes f).byte b = f b := by
  apply BitVec.eq_of_getLsbD_eq
  intro i hi
  have h1 : 8 * b + i < 1600 := by omega
  have h2 : (8 * b + i) / 8 = b := by omega
  have h3 : (8 * b + i) % 8 = i := by omega
  rw [PState.byte_getLsbD, PState.ofBytes, packBytes_getLsbD _ _ _ (le_refl _)]
  simp [h1, h2, h3, hi]

/-- A state is the packing of its bytes. -/
theorem PState.eq_ofBytes_iff (s : PState) (f : Nat → Byte) :
    s = PState.ofBytes f ↔ ∀ b < 200, s.byte b = f b :=
  ⟨fun h b hb => by rw [h, PState.byte_ofBytes f hb],
    fun h => PState.ext_bytes fun b hb => by rw [h b hb, PState.byte_ofBytes f hb]⟩

theorem PState.ofBytes_congr {f g : Nat → Byte} (h : ∀ b < 200, f b = g b) :
    PState.ofBytes f = PState.ofBytes g :=
  (PState.eq_ofBytes_iff _ g).2 fun b hb => by rw [PState.byte_ofBytes f hb, h b hb]

/-- `s[b] xor x` changes byte `b` and no other. -/
theorem PState.byte_xorByte (s : PState) (b : Nat) (x : Byte) {c : Nat} (hc : c < 200) :
    (s.xorByte b x).byte c = if c = b then s.byte c ^^^ x else s.byte c := by
  apply BitVec.eq_of_getLsbD_eq
  intro i hi
  rw [PState.byte_getLsbD, PState.xorByte, BitVec.getLsbD_xor, BitVec.getLsbD_shiftLeft,
    BitVec.getLsbD_setWidth]
  have h1 : 8 * c + i < 1600 := by omega
  rcases Nat.lt_trichotomy c b with h | h | h
  · have h2 : 8 * c + i < 8 * b := by omega
    simp [h1, h2, Nat.ne_of_lt h, PState.byte_getLsbD]
  · subst h
    have h2 : i < 1600 := by omega
    rw [if_pos rfl, BitVec.getLsbD_xor, PState.byte_getLsbD]
    simp [hi, h1, h2]
  · have h3 : x.getLsbD (8 * c + i - 8 * b) = false := BitVec.getLsbD_of_ge _ _ (by omega)
    simp [h3, Nat.ne_of_gt h, PState.byte_getLsbD]

/-- Bytes of words are bytes of the state (20_memory.md R51). -/
theorem PState.wordByte_word (s : PState) (i : Nat) {t : Nat} (ht : t < 8) :
    wordByte (s.word i) t = s.byte (8 * i + t) := by
  apply BitVec.eq_of_getLsbD_eq
  intro k hk
  have h1 : 8 * t + k < 64 := by omega
  have e : 64 * i + (8 * t + k) = 8 * (8 * i + t) + k := by omega
  simp [wordByte, PState.word, PState.byte, BitVec.getLsbD_extractLsb', h1, e]

theorem PState.word_getLsbD (s : PState) (i k : Nat) :
    (s.word i).getLsbD k = (decide (k < 64) && s.getLsbD (64 * i + k)) := by
  simp [PState.word, BitVec.getLsbD_extractLsb']

theorem packWords_getLsbD (f : Nat → Word) (n i : Nat) (hn : n ≤ 25) :
    (packWords f n).getLsbD i = (decide (i < 64 * n) && (f (i / 64)).getLsbD (i % 64)) := by
  induction n with
  | zero => simp [packWords]
  | succ n ih =>
    rw [packWords, BitVec.getLsbD_or, ih (by omega), BitVec.getLsbD_shiftLeft,
      BitVec.getLsbD_setWidth]
    rcases Nat.lt_trichotomy (i / 64) n with h | h | h
    · have h1 : i < 64 * n := by omega
      have h2 : i < 64 * (n + 1) := by omega
      simp [h1, h2]
    · have h1 : ¬ i < 64 * n := by omega
      have h2 : i < 64 * (n + 1) := by omega
      have h3 : i < 1600 := by omega
      have h4 : i - 64 * n = i % 64 := by omega
      have h5 : i % 64 < 1600 := by omega
      simp [h1, h2, h3, h4, h, h5]
    · have h1 : ¬ i < 64 * n := by omega
      have h2 : ¬ i < 64 * (n + 1) := by omega
      have h3 : (f n).getLsbD (i - 64 * n) = false := BitVec.getLsbD_of_ge _ _ (by omega)
      simp [h1, h2, h3]

/-- Reading back a word of a state packed from words. -/
theorem PState.word_ofWords (f : Nat → Word) {i : Nat} (hi : i < 25) :
    (PState.ofWords f).word i = f i := by
  apply BitVec.eq_of_getLsbD_eq
  intro k hk
  have h1 : 64 * i + k < 1600 := by omega
  have h2 : (64 * i + k) / 64 = i := by omega
  have h3 : (64 * i + k) % 64 = k := by omega
  rw [PState.word_getLsbD, PState.ofWords, packWords_getLsbD _ _ _ (le_refl _)]
  simp [h1, h2, h3, hk]

@[simp] theorem PState.byte_zero (b : Nat) : PState.byte 0#1600 b = 0#8 := by
  apply BitVec.eq_of_getLsbD_eq
  intro i _
  simp [PState.byte_getLsbD]

end Sys2Proof
end

