-- ==== Sys2Proof/Laws/Memory.lean ====
section
/-! SUPPORT. The buffer: reading after writing, the canonical form kept by every write, and equality of
canonical buffers that read alike. -/

namespace Sys2Proof.Machine

@[simp] theorem Memory.read_nil (a : Nat) : Memory.read [] a = Memory.unlisted := rfl

@[simp] theorem Memory.read_zeros (a : Nat) : Memory.read Memory.zeros a = 0x00#8 := rfl

theorem Memory.read_cons (c : Host.Cell) (m : Memory) (a : Nat) :
    Memory.read (c :: m) a = if c.1 = a then c.2 else Memory.read m a := rfl

theorem Memory.read_of_notMem {m : Memory} {a : Nat} (h : ∀ c ∈ m, c.1 ≠ a) :
    m.read a = Memory.unlisted := by
  induction m with
  | nil => rfl
  | cons c m ih =>
    rw [Memory.read_cons, if_neg (h c (by simp)), ih fun d hd => h d (by simp [hd])]

theorem Memory.read_append_left {m₁ : Memory} (m₂ : Memory) {a : Nat} (h : ∀ c ∈ m₁, c.1 ≠ a) :
    Memory.read (m₁ ++ m₂) a = m₂.read a := by
  induction m₁ with
  | nil => rfl
  | cons c m ih =>
    rw [List.cons_append, Memory.read_cons, if_neg (h c (by simp)), ih fun d hd => h d (by simp [hd])]

theorem Memory.read_append_right (m₁ : Memory) {m₂ : Memory} {a : Nat} (h : ∀ c ∈ m₂, c.1 ≠ a) :
    Memory.read (m₁ ++ m₂) a = m₁.read a := by
  induction m₁ with
  | nil => rw [List.nil_append, Memory.read_of_notMem h, Memory.read_nil]
  | cons c m ih => rw [List.cons_append, Memory.read_cons, Memory.read_cons, ih]

theorem Memory.read_filter {m : Memory} {p : Nat → Bool} {a : Nat} (h : p a = true) :
    Memory.read (m.filter fun c => p c.1) a = m.read a := by
  induction m with
  | nil => rfl
  | cons c m ih =>
    by_cases hc : p c.1 = true
    · rw [List.filter_cons_of_pos (p := fun c : Host.Cell => p c.1) hc, Memory.read_cons, Memory.read_cons, ih]
    · have hne : c.1 ≠ a := fun e => hc (by rw [e, h])
      rw [List.filter_cons_of_neg (p := fun c : Host.Cell => p c.1) hc, Memory.read_cons, if_neg hne, ih]

/-- The addresses of `cells a bs` are those of the bytes written. -/
theorem Memory.mem_cells {bs : List Byte} {a : Nat} {c : Host.Cell} (h : c ∈ Memory.cells a bs) :
    a ≤ c.1 ∧ c.1 < a + bs.length ∧ c.2 ≠ Memory.unlisted := by
  induction bs generalizing a with
  | nil => simp [Memory.cells] at h
  | cons b bs ih =>
    unfold Memory.cells at h
    split at h
    · have := ih h
      exact ⟨by omega, by simp; omega, this.2.2⟩
    · rcases List.mem_cons.1 h with rfl | h
      · exact ⟨le_refl _, by simp, by assumption⟩
      · have := ih h
        exact ⟨by omega, by simp; omega, this.2.2⟩

theorem Memory.cells_sorted (a : Nat) (bs : List Byte) :
    (Memory.cells a bs).Pairwise fun c d => c.1 < d.1 := by
  induction bs generalizing a with
  | nil => exact List.Pairwise.nil
  | cons b bs ih =>
    unfold Memory.cells
    split
    · exact ih _
    · exact List.Pairwise.cons (fun c hc => (Memory.mem_cells hc).1) (ih _)

theorem Memory.read_cells {bs : List Byte} {a x : Nat} (h1 : a ≤ x) (h2 : x < a + bs.length) :
    (Memory.cells a bs).read x = bs[x - a] := by
  induction bs generalizing a with
  | nil => simp at h2; omega
  | cons b bs ih =>
    simp only [List.length_cons] at h2
    unfold Memory.cells
    by_cases hx : x = a
    · subst hx
      split
      · rw [Memory.read_of_notMem fun c hc => by have := (Memory.mem_cells hc).1; omega]
        rename_i hb
        simp [hb]
      · simp [Memory.read_cons]
    · have e : x - a = x - (a + 1) + 1 := by omega
      have := ih (a := a + 1) (by omega) (by omega)
      split
      · rw [this]; simp [e]
      · rw [Memory.read_cons, if_neg (by simpa using fun h => hx h.symm), this]; simp [e]

/-- `MemRead` after `MemWrite` (20_memory.md R56): the bytes written, and "no effect other than the
bytes written". -/
theorem Memory.read_write (m : Memory) (a : Nat) (bs : List Byte) (h : a + bs.length ≤ 1600)
    (x : Nat) :
    (m.write a bs).read x =
      if hx : a ≤ x ∧ x < a + bs.length then bs[x - a] else m.read x := by
  unfold Memory.write
  rw [if_pos h]
  split
  · rename_i hx
    rw [Memory.read_append_left _ fun c hc => by
        have := of_decide_eq_true (List.mem_filter.1 hc).2; omega,
      Memory.read_append_right _ fun c hc => by
        have := of_decide_eq_true (List.mem_filter.1 hc).2; omega,
      Memory.read_cells hx.1 hx.2]
  · rename_i hx
    by_cases hlt : x < a
    · rw [Memory.read_append_right _ fun c hc => by
          rcases List.mem_append.1 hc with hc | hc
          · have := (Memory.mem_cells hc).1; omega
          · have := of_decide_eq_true (List.mem_filter.1 hc).2; omega,
        Memory.read_filter (p := fun k => decide (k < a)) (decide_eq_true hlt)]
    · have hge : a + bs.length ≤ x := by omega
      rw [Memory.read_append_left _ fun c hc => by
          have := of_decide_eq_true (List.mem_filter.1 hc).2; omega,
        Memory.read_append_left _ fun c hc => by have := (Memory.mem_cells hc).2.1; omega,
        Memory.read_filter (p := fun k => decide (a + bs.length ≤ k)) (decide_eq_true hge)]

/-- One byte written (R56). -/
theorem Memory.read_write_one (m : Memory) {a : Nat} (b : Byte) (h : a < 1600) (x : Nat) :
    (m.write a [b]).read x = if x = a then b else m.read x := by
  rw [Memory.read_write m a [b] (by simpa using h)]
  simp only [List.length_cons, List.length_nil]
  by_cases hx : x = a
  · subst hx; simp
  · rw [dif_neg (by omega), if_neg hx]

theorem Memory.zeros_wf : Memory.wf Memory.zeros := by
  exact ⟨List.Pairwise.nil, fun c hc => by simp [Memory.zeros] at hc⟩

/-- Every write keeps the canonical form. -/
theorem Memory.write_wf {m : Memory} (hm : m.wf) (a : Nat) (bs : List Byte) :
    Memory.wf (m.write a bs) := by
  unfold Memory.write
  split
  · rename_i h
    refine ⟨?_, ?_⟩
    · rw [List.pairwise_append, List.pairwise_append]
      refine ⟨hm.1.filter _, ⟨Memory.cells_sorted _ _, hm.1.filter _, ?_⟩, ?_⟩
      · intro c hc d hd
        have h1 := (Memory.mem_cells hc).2.1
        have h2 := of_decide_eq_true (List.mem_filter.1 hd).2
        omega
      · intro c hc d hd
        have h1 := of_decide_eq_true (List.mem_filter.1 hc).2
        rcases List.mem_append.1 hd with hd | hd
        · have := (Memory.mem_cells hd).1; omega
        · have := of_decide_eq_true (List.mem_filter.1 hd).2; omega
    · intro c hc
      rcases List.mem_append.1 hc with hc | hc
      · exact hm.2 c (List.mem_filter.1 hc).1
      · rcases List.mem_append.1 hc with hc | hc
        · have := Memory.mem_cells hc
          exact ⟨by show c.1 < 1600; have : a + bs.length ≤ 1600 := h; omega, this.2.2⟩
        · exact hm.2 c (List.mem_filter.1 hc).1
  · exact hm

/-- A canonical buffer lists exactly the bytes that differ from what an unlisted address reads as. -/
theorem Memory.mem_iff_read {m : Memory} (hm : m.wf) (a : Nat) (b : Byte) :
    (a, b) ∈ m ↔ m.read a = b ∧ b ≠ Memory.unlisted := by
  induction m with
  | nil => simp [eq_comm]
  | cons c m ih =>
    have hs := List.pairwise_cons.1 hm.1
    have hw : Memory.wf m := ⟨hs.2, fun d hd => hm.2 d (by simp [hd])⟩
    have hc := hm.2 c (by simp)
    rw [List.mem_cons, Memory.read_cons]
    constructor
    · rintro (rfl | h)
      · exact ⟨by simp, hc.2⟩
      · have hlt := hs.1 _ h
        rw [if_neg (by simp at hlt; omega)]
        exact (ih hw).1 h
    · rintro ⟨h, hb⟩
      split at h
      · rename_i e
        left
        exact Prod.ext e.symm h.symm
      · exact Or.inr ((ih hw).2 ⟨h, hb⟩)

/-- Equal memories are equal data: canonical buffers that read alike are the same list. -/
theorem Memory.ext_of_wf {m m' : Memory} (hm : m.wf) (hm' : m'.wf)
    (h : ∀ a < 1600, m.read a = m'.read a) : m = m' := by
  have nodup : ∀ {k : Memory}, k.wf → k.Nodup := fun hk =>
    hk.1.imp fun hlt e => by rw [e] at hlt; exact lt_irrefl _ hlt
  have hall : ∀ a, m.read a = m'.read a := by
    intro a
    by_cases ha : a < 1600
    · exact h a ha
    · have out : ∀ {k : Memory}, k.wf → k.read a = Memory.unlisted := fun hk =>
        Memory.read_of_notMem fun c hc e => ha (by rw [← e]; exact (hk.2 c hc).1)
      rw [out hm, out hm']
  have hp : m.Perm m' := (List.perm_ext_iff_of_nodup (nodup hm) (nodup hm')).2 fun c => by
    obtain ⟨a, b⟩ := c
    rw [Memory.mem_iff_read hm, Memory.mem_iff_read hm', hall]
  exact hp.eq_of_pairwise (fun c d _ _ h1 h2 => by omega) hm.1 hm'.1

end Sys2Proof.Machine
end

