-- ==== Sys2Proof/Laws/Layout.lean ====
section
/-! SUPPORT. The layout of the lanes in the buffer: no two lane bytes share an address, every address
holds one, and what writing a lane or one of its bytes does to the lane view. -/

namespace Sys2Proof.Machine

theorem wordIndex_lt (W : VectorWidth) {j w : Nat} (hj : j < 8) (hw : w < 25) :
    wordIndex W j w < 200 := by
  cases W <;> simp only [wordIndex] <;> omega

/-- No two words of the lane file share a buffer word (20_memory.md R55). -/
theorem wordIndex_inj (W : VectorWidth) {j w j' w' : Nat} (hj : j < 8) (hw : w < 25) (hj' : j' < 8)
    (hw' : w' < 25) (h : wordIndex W j w = wordIndex W j' w') : j = j' ∧ w = w' := by
  cases W <;> simp only [wordIndex] at h <;> omega

/-- Every buffer word holds a word of the lane file (R55). -/
theorem wordIndex_surj (W : VectorWidth) {p : Nat} (hp : p < 200) :
    ∃ j < 8, ∃ w < 25, wordIndex W j w = p := by
  cases W
  · exact ⟨p / 25, by omega, p % 25, by omega, by simp only [wordIndex]; omega⟩
  · exact ⟨4 * (p / 100) + p % 4, by omega, p % 100 / 4, by omega, by
      simp only [wordIndex]; omega⟩
  · exact ⟨p % 8, by omega, p / 8, by omega, by simp only [wordIndex]; omega⟩

theorem byteAddr_lt (W : VectorWidth) {j b : Nat} (hj : j < 8) (hb : b < 200) :
    byteAddr W j b < 1600 := by
  have := wordIndex_lt W hj (show b / 8 < 25 by omega)
  unfold byteAddr
  omega

theorem byteAddr_inj (W : VectorWidth) {j b j' b' : Nat} (hj : j < 8) (hb : b < 200) (hj' : j' < 8)
    (hb' : b' < 200) (h : byteAddr W j b = byteAddr W j' b') : j = j' ∧ b = b' := by
  unfold byteAddr at h
  have := wordIndex_inj W hj (show b / 8 < 25 by omega) hj' (show b' / 8 < 25 by omega) (by omega)
  omega

theorem byteAddr_surj (W : VectorWidth) {a : Nat} (ha : a < 1600) :
    ∃ j < 8, ∃ b < 200, byteAddr W j b = a := by
  obtain ⟨j, hj, w, hw, h⟩ := wordIndex_surj W (show a / 8 < 200 by omega)
  refine ⟨j, hj, 8 * w + a % 8, by omega, ?_⟩
  have h1 : (8 * w + a % 8) / 8 = w := by omega
  have h2 : (8 * w + a % 8) % 8 = a % 8 := by omega
  rw [byteAddr, h1, h2, h]
  omega

theorem lane_byte (W : VectorWidth) (m : Memory) (j : Nat) {b : Nat} (hb : b < 200) :
    (lane W m j).byte b = laneByte W m j b := PState.byte_ofBytes _ hb

/-- Two canonical buffers with the same lanes are the same list. -/
theorem buffer_eq_of_lanes {W : VectorWidth} {m m' : Memory} (hm : m.wf) (hm' : m'.wf)
    (h : ∀ j < 8, lane W m j = lane W m' j) : m = m' :=
  Memory.ext_of_wf hm hm' fun a ha => by
    obtain ⟨j, hj, b, hb, rfl⟩ := byteAddr_surj W ha
    have := congrArg (fun s => PState.byte s b) (h j hj)
    simpa only [lane_byte _ _ _ hb, laneByte] using this

@[simp] theorem wordBytes_length (w : Word) : (wordBytes w).length = 8 := by simp [wordBytes]

theorem wordBytes_getElem (w : Word) (t : Nat) (h : t < (wordBytes w).length) :
    (wordBytes w)[t] = wordByte w t := by simp [wordBytes]

/-! ## Writing a whole lane -/

theorem setLane_prefix_read (W : VectorWidth) {j j' b n : Nat} (v : PState) (m : Memory) (hj : j < 8)
    (hj' : j' < 8) (hb : b < 200) (hn : n ≤ 25) :
    laneByte W ((List.range n).foldl
        (fun m w => m.write (8 * wordIndex W j w) (wordBytes (v.word w))) m) j' b =
      if j' = j ∧ b / 8 < n then v.byte b else laneByte W m j' b := by
  induction n with
  | zero => simp
  | succ n ih =>
    have hi := wordIndex_lt W hj (show n < 25 by omega)
    rw [List.range_succ, List.foldl_append, List.foldl_cons, List.foldl_nil, laneByte,
      Memory.read_write _ _ _ (by rw [wordBytes_length]; omega)]
    simp only [wordBytes_length, wordBytes_getElem]
    split
    · rename_i h
      have := wordIndex_inj W hj' (show b / 8 < 25 by omega) hj (show n < 25 by omega)
        (by unfold byteAddr at h; omega)
      have hd : byteAddr W j' b - 8 * wordIndex W j n = b % 8 := by
        rw [byteAddr, this.1, this.2]; omega
      rw [if_pos ⟨this.1, by omega⟩, hd, PState.wordByte_word _ _ (by omega), ← this.2]
      congr 1
      omega
    · rename_i h
      have ih := ih (by omega)
      unfold laneByte at ih ⊢
      rw [ih]
      by_cases hjj : j' = j
      · by_cases hbn : b / 8 = n
        · exfalso
          apply h
          rw [byteAddr, hjj, hbn]
          omega
        · have : (b / 8 < n) = (b / 8 < n + 1) := by
            apply propext; omega
          simp only [this]
      · simp [hjj]

/-- `L[j] <- v` gives lane `j` the state `v` and leaves every other lane alone. -/
theorem lane_setLane (W : VectorWidth) {j j' : Nat} (v : PState) (m : Memory) (hj : j < 8)
    (hj' : j' < 8) : lane W (setLane W j v m) j' = if j' = j then v else lane W m j' := by
  apply PState.ext_bytes
  intro b hb
  rw [lane_byte _ _ _ hb, setLane, setLane_prefix_read W v m hj hj' hb (le_refl 25)]
  have : b / 8 < 25 := by omega
  by_cases h : j' = j
  · simp [h, this]
  · simp [h, lane_byte _ _ _ hb]

theorem setLane_wf {m : Memory} (hm : m.wf) (W : VectorWidth) (j : Nat) (v : PState) :
    Memory.wf (setLane W j v m) := by
  unfold setLane
  generalize List.range Config.stateWords = l
  induction l generalizing m with
  | nil => exact hm
  | cons w l ih => exact ih (Memory.write_wf hm _ _)

/-! ## Exclusive-or into one byte of a lane -/

theorem xorStateByte_of_lt (v : PState) {b : Nat} (x : Byte) (hb : b < 200) :
    xorStateByte v b x = v.xorByte b x := if_pos hb

/-- `L[j][b] <- L[j][b] xor x` is that operation on lane `j`, and leaves every other lane alone. -/
theorem lane_xorLaneByte (W : VectorWidth) {j j' : Nat} (b : Nat) (x : Byte) (m : Memory) (hj : j < 8)
    (hj' : j' < 8) :
    lane W (xorLaneByte W j b x m) j' =
      if j' = j then xorStateByte (lane W m j') b x else lane W m j' := by
  by_cases hb : b < 200
  swap
  · rw [xorLaneByte, xorStateByte, if_neg hb, if_neg hb, lane_setLane W _ _ hj hj']
    by_cases h : j' = j
    · rw [if_pos h, if_pos h, h]
    · rw [if_neg h, if_neg h]
  rw [xorStateByte_of_lt _ _ hb, xorLaneByte, if_pos hb]
  apply PState.ext_bytes
  intro c hc
  rw [lane_byte _ _ _ hc, laneByte, Memory.read_write_one _ _ (byteAddr_lt W hj hb)]
  by_cases h : j' = j
  · subst h
    rw [if_pos rfl, PState.byte_xorByte _ _ _ hc, lane_byte _ _ _ hc]
    by_cases hcb : c = b
    · subst hcb; simp
    · rw [if_neg (fun e => hcb (byteAddr_inj W hj' hc hj hb e).2), if_neg hcb, laneByte]
  · rw [if_neg (fun e => h (byteAddr_inj W hj' hc hj hb e).1), if_neg h, lane_byte _ _ _ hc, laneByte]

theorem xorLaneByte_wf {m : Memory} (hm : m.wf) (W : VectorWidth) (j b : Nat) (x : Byte) :
    Memory.wf (xorLaneByte W j b x m) := by
  unfold xorLaneByte
  split
  · exact Memory.write_wf hm _ _
  · exact setLane_wf hm _ _ _

@[simp] theorem lane_zeros (W : VectorWidth) (j : Nat) : lane W Memory.zeros j = 0#1600 := by
  apply PState.ext_bytes
  intro b hb
  rw [lane_byte _ _ _ hb, laneByte, Memory.read_zeros, PState.byte_zero]

/-! ## The serializer's addresses (20_memory.md R57) -/

theorem canonicalLane_lt (c : Nat) : canonicalLane c < 8 := Nat.mod_lt _ (by decide)

theorem canonicalByte_lt {rate c : Nat} (h : c < 8 * rate) (h8 : rate % 8 = 0) :
    canonicalByte c < rate := by
  unfold canonicalByte; omega

/-- `SBbyte(c)` where the rules state it: the lane byte R166 names. -/
theorem sbByte_of_lt (s : State) {c : Nat} (hr : s.rate.toNat ≤ 200) (hc : c < 8 * s.rate.toNat) :
    sbByte s c = (lane s.width s.buffer (canonicalLane c)).byte (canonicalByte c) := by
  have hb : canonicalByte c < 200 := by unfold canonicalByte; omega
  rw [sbByte, if_pos ⟨hc, hb⟩, lane_byte _ _ _ hb]
  rfl

/-- `SBbyte(c)` where they do not: a free value. -/
theorem sbByte_of_ge (s : State) {c : Nat} (hc : 8 * s.rate.toNat ≤ c) :
    sbByte s c = Config.unstatedByte s.rate c (laneFile s.width s.buffer) :=
  if_neg fun h => absurd h.1 (by omega)

/-- `SBbyte(c)` is a function of `rate`, `c` and the lanes, at every width and whatever the registers
hold. -/
theorem sbByte_congr {s s' : State} (hr : s.rate = s'.rate)
    (hl : ∀ j < 8, lane s.width s.buffer j = lane s'.width s'.buffer j) (c : Nat) :
    sbByte s c = sbByte s' c := by
  have hf : laneFile s.width s.buffer = laneFile s'.width s'.buffer :=
    List.map_congr_left fun j hj => hl j (List.mem_range.1 hj)
  unfold sbByte
  rw [hr, hf]
  by_cases h : c < 8 * s'.rate.toNat ∧ canonicalByte c < Config.stateBytes
  · have := congrArg (fun v => PState.byte v (canonicalByte c)) (hl _ (canonicalLane_lt c))
    rw [if_pos h, if_pos h]
    simp only [lane_byte _ _ _ h.2] at this
    exact this
  · rw [if_neg h, if_neg h]

end Sys2Proof.Machine
end

