-- ==== Sys2Proof/Laws/State.lean ====
section
/-! SUPPORT. One lemma per field per named update of the state, so that no later proof unfolds a record
update. -/

namespace Sys2Proof.Machine

/-! ## State.respond -/

@[simp] theorem State.respond_valid (s : State) (e : Status) (out : List Byte) :
    (s.respond e out).valid = s.valid := rfl
@[simp] theorem State.respond_mode (s : State) (e : Status) (out : List Byte) :
    (s.respond e out).mode = s.mode := rfl
@[simp] theorem State.respond_rate (s : State) (e : Status) (out : List Byte) :
    (s.respond e out).rate = s.rate := rfl
@[simp] theorem State.respond_cursor (s : State) (e : Status) (out : List Byte) :
    (s.respond e out).cursor = s.cursor := rfl
@[simp] theorem State.respond_apos (s : State) (e : Status) (out : List Byte) :
    (s.respond e out).apos = s.apos := rfl
@[simp] theorem State.respond_S (s : State) (e : Status) (out : List Byte) :
    (s.respond e out).S = s.S := rfl
@[simp] theorem State.respond_buffer (s : State) (e : Status) (out : List Byte) :
    (s.respond e out).buffer = s.buffer := rfl
@[simp] theorem State.respond_width (s : State) (e : Status) (out : List Byte) :
    (s.respond e out).width = s.width := rfl
@[simp] theorem State.respond_inbox (s : State) (e : Status) (out : List Byte) :
    (s.respond e out).inbox = s.inbox := rfl
@[simp] theorem State.respond_outbox (s : State) (e : Status) (out : List Byte) :
    (s.respond e out).outbox = s.outbox ++ [⟨e, out⟩] := rfl
@[simp] theorem State.respond_trace (s : State) (e : Status) (out : List Byte) :
    (s.respond e out).trace = s.trace := rfl
@[simp] theorem State.respond_scalarPerms (s : State) (e : Status) (out : List Byte) :
    (s.respond e out).scalarPerms = s.scalarPerms := rfl
@[simp] theorem State.respond_resets (s : State) (e : Status) (out : List Byte) :
    (s.respond e out).resets = s.resets := rfl

/-! ## createInstance -/

@[simp] theorem createInstance_valid (r : BitVec 8) (s : State) :
    (createInstance r s).valid = true := rfl
@[simp] theorem createInstance_mode (r : BitVec 8) (s : State) :
    (createInstance r s).mode = .absorbing := rfl
@[simp] theorem createInstance_rate (r : BitVec 8) (s : State) :
    (createInstance r s).rate = r := rfl
@[simp] theorem createInstance_cursor (r : BitVec 8) (s : State) :
    (createInstance r s).cursor = 0#11 := rfl
@[simp] theorem createInstance_apos (r : BitVec 8) (s : State) :
    (createInstance r s).apos = 0#8 := rfl
@[simp] theorem createInstance_S (r : BitVec 8) (s : State) : (createInstance r s).S = 0#1600 := rfl
@[simp] theorem createInstance_buffer (r : BitVec 8) (s : State) :
    (createInstance r s).buffer = Memory.zeros := rfl
@[simp] theorem createInstance_width (r : BitVec 8) (s : State) :
    (createInstance r s).width = s.width := rfl
@[simp] theorem createInstance_inbox (r : BitVec 8) (s : State) :
    (createInstance r s).inbox = s.inbox := rfl
@[simp] theorem createInstance_outbox (r : BitVec 8) (s : State) :
    (createInstance r s).outbox = s.outbox := rfl
@[simp] theorem createInstance_trace (r : BitVec 8) (s : State) :
    (createInstance r s).trace = s.trace := rfl
@[simp] theorem createInstance_scalarPerms (r : BitVec 8) (s : State) :
    (createInstance r s).scalarPerms = s.scalarPerms := rfl
@[simp] theorem createInstance_resets (r : BitVec 8) (s : State) :
    (createInstance r s).resets = s.resets := rfl

/-! ## issueRequest -/

@[simp] theorem issueRequest_valid (s : State) (q : Preq) :
    (issueRequest s q).valid = s.valid := rfl
@[simp] theorem issueRequest_mode (s : State) (q : Preq) : (issueRequest s q).mode = s.mode := rfl
@[simp] theorem issueRequest_rate (s : State) (q : Preq) : (issueRequest s q).rate = s.rate := rfl
@[simp] theorem issueRequest_cursor (s : State) (q : Preq) :
    (issueRequest s q).cursor = s.cursor := rfl
@[simp] theorem issueRequest_apos (s : State) (q : Preq) : (issueRequest s q).apos = s.apos := rfl
@[simp] theorem issueRequest_S (s : State) (q : Preq) : (issueRequest s q).S = s.S := rfl
@[simp] theorem issueRequest_buffer (s : State) (q : Preq) :
    (issueRequest s q).buffer = permuteRequest q s.buffer := rfl
@[simp] theorem issueRequest_width (s : State) (q : Preq) :
    (issueRequest s q).width = s.width := rfl
@[simp] theorem issueRequest_inbox (s : State) (q : Preq) :
    (issueRequest s q).inbox = s.inbox := rfl
@[simp] theorem issueRequest_outbox (s : State) (q : Preq) :
    (issueRequest s q).outbox = s.outbox := rfl
@[simp] theorem issueRequest_trace (s : State) (q : Preq) :
    (issueRequest s q).trace = s.trace ++ [encodePreq q] := rfl
@[simp] theorem issueRequest_scalarPerms (s : State) (q : Preq) :
    (issueRequest s q).scalarPerms = s.scalarPerms := rfl
@[simp] theorem issueRequest_resets (s : State) (q : Preq) :
    (issueRequest s q).resets = s.resets := rfl

/-! ## dispatchLane -/

@[simp] theorem dispatchLane_valid (s : State) (i : Nat) : (dispatchLane s i).valid = s.valid := rfl
@[simp] theorem dispatchLane_mode (s : State) (i : Nat) : (dispatchLane s i).mode = s.mode := rfl
@[simp] theorem dispatchLane_rate (s : State) (i : Nat) : (dispatchLane s i).rate = s.rate := rfl
@[simp] theorem dispatchLane_cursor (s : State) (i : Nat) :
    (dispatchLane s i).cursor = s.cursor := rfl
@[simp] theorem dispatchLane_apos (s : State) (i : Nat) : (dispatchLane s i).apos = s.apos := rfl
@[simp] theorem dispatchLane_S (s : State) (i : Nat) : (dispatchLane s i).S = s.S := rfl
@[simp] theorem dispatchLane_buffer (s : State) (i : Nat) :
    (dispatchLane s i).buffer = xorLaneByte s.width i s.apos.toNat (BitVec.ofNat 8 i) (setLane s.width i s.S s.buffer) := rfl
@[simp] theorem dispatchLane_width (s : State) (i : Nat) : (dispatchLane s i).width = s.width := rfl
@[simp] theorem dispatchLane_inbox (s : State) (i : Nat) : (dispatchLane s i).inbox = s.inbox := rfl
@[simp] theorem dispatchLane_outbox (s : State) (i : Nat) :
    (dispatchLane s i).outbox = s.outbox := rfl
@[simp] theorem dispatchLane_trace (s : State) (i : Nat) : (dispatchLane s i).trace = s.trace := rfl
@[simp] theorem dispatchLane_scalarPerms (s : State) (i : Nat) :
    (dispatchLane s i).scalarPerms = s.scalarPerms := rfl
@[simp] theorem dispatchLane_resets (s : State) (i : Nat) :
    (dispatchLane s i).resets = s.resets := rfl

/-! ## advance -/

@[simp] theorem advance_valid (s : State) (d : Nat) : (advance s d).valid = s.valid := rfl
@[simp] theorem advance_mode (s : State) (d : Nat) : (advance s d).mode = s.mode := rfl
@[simp] theorem advance_rate (s : State) (d : Nat) : (advance s d).rate = s.rate := rfl
@[simp] theorem advance_cursor (s : State) (d : Nat) :
    (advance s d).cursor =
      if s.cursor.toNat + d < 2 ^ 11 then BitVec.ofNat 11 (s.cursor.toNat + d)
      else Config.unstatedCursor s.rate (s.cursor.toNat + d) := rfl
@[simp] theorem advance_apos (s : State) (d : Nat) : (advance s d).apos = s.apos := rfl
@[simp] theorem advance_S (s : State) (d : Nat) : (advance s d).S = s.S := rfl
@[simp] theorem advance_buffer (s : State) (d : Nat) : (advance s d).buffer = s.buffer := rfl
@[simp] theorem advance_width (s : State) (d : Nat) : (advance s d).width = s.width := rfl
@[simp] theorem advance_inbox (s : State) (d : Nat) : (advance s d).inbox = s.inbox := rfl
@[simp] theorem advance_outbox (s : State) (d : Nat) : (advance s d).outbox = s.outbox := rfl
@[simp] theorem advance_trace (s : State) (d : Nat) : (advance s d).trace = s.trace := rfl
@[simp] theorem advance_scalarPerms (s : State) (d : Nat) :
    (advance s d).scalarPerms = s.scalarPerms := rfl
@[simp] theorem advance_resets (s : State) (d : Nat) : (advance s d).resets = s.resets := rfl

/-! ## powerOnReset -/

@[simp] theorem powerOnReset_valid (s : State) : (powerOnReset s).valid = false := rfl
@[simp] theorem powerOnReset_mode (s : State) : (powerOnReset s).mode = .absorbing := rfl
@[simp] theorem powerOnReset_rate (s : State) :
    (powerOnReset s).rate = Config.unspecifiedRate s.resets := rfl
@[simp] theorem powerOnReset_cursor (s : State) : (powerOnReset s).cursor = 0#11 := rfl
@[simp] theorem powerOnReset_apos (s : State) :
    (powerOnReset s).apos = Config.unspecifiedApos s.resets := rfl
@[simp] theorem powerOnReset_S (s : State) :
    (powerOnReset s).S = Config.unspecifiedS s.resets := rfl
@[simp] theorem powerOnReset_buffer (s : State) :
    (powerOnReset s).buffer = unspecifiedBuffer s.width s.resets := rfl
@[simp] theorem powerOnReset_width (s : State) : (powerOnReset s).width = s.width := rfl
@[simp] theorem powerOnReset_inbox (s : State) : (powerOnReset s).inbox = s.inbox := rfl
@[simp] theorem powerOnReset_outbox (s : State) : (powerOnReset s).outbox = s.outbox := rfl
@[simp] theorem powerOnReset_trace (s : State) : (powerOnReset s).trace = [] := rfl
@[simp] theorem powerOnReset_scalarPerms (s : State) : (powerOnReset s).scalarPerms = 0 := rfl
@[simp] theorem powerOnReset_resets (s : State) : (powerOnReset s).resets = s.resets + 1 := rfl

/-! ## State.withFetchWord -/

@[simp] theorem State.withFetchWord_valid (s : State) (nbits w : Nat) :
    (s.withFetchWord nbits w).valid = s.valid := rfl
@[simp] theorem State.withFetchWord_mode (s : State) (nbits w : Nat) :
    (s.withFetchWord nbits w).mode = s.mode := rfl
@[simp] theorem State.withFetchWord_rate (s : State) (nbits w : Nat) :
    (s.withFetchWord nbits w).rate = s.rate := rfl
@[simp] theorem State.withFetchWord_cursor (s : State) (nbits w : Nat) :
    (s.withFetchWord nbits w).cursor = s.cursor := rfl
@[simp] theorem State.withFetchWord_apos (s : State) (nbits w : Nat) :
    (s.withFetchWord nbits w).apos = s.apos := rfl
@[simp] theorem State.withFetchWord_S (s : State) (nbits w : Nat) :
    (s.withFetchWord nbits w).S = s.S := rfl
@[simp] theorem State.withFetchWord_buffer (s : State) (nbits w : Nat) :
    (s.withFetchWord nbits w).buffer = s.buffer := rfl
@[simp] theorem State.withFetchWord_width (s : State) (nbits w : Nat) :
    (s.withFetchWord nbits w).width = s.width := rfl
@[simp] theorem State.withFetchWord_inbox (s : State) (nbits w : Nat) :
    (s.withFetchWord nbits w).inbox = .command (tableTransaction nbits w) :: s.inbox := rfl
@[simp] theorem State.withFetchWord_outbox (s : State) (nbits w : Nat) :
    (s.withFetchWord nbits w).outbox = s.outbox := rfl
@[simp] theorem State.withFetchWord_trace (s : State) (nbits w : Nat) :
    (s.withFetchWord nbits w).trace = s.trace := rfl
@[simp] theorem State.withFetchWord_scalarPerms (s : State) (nbits w : Nat) :
    (s.withFetchWord nbits w).scalarPerms = s.scalarPerms := rfl
@[simp] theorem State.withFetchWord_resets (s : State) (nbits w : Nat) :
    (s.withFetchWord nbits w).resets = s.resets := rfl

end Sys2Proof.Machine
end

