-- ==== Sys2Proof/Laws/Absorb.lean ====
section
/-! SUPPORT. Absorbing: what `Absorb` changes, that it is the sponge's absorbing, and that the position
stays inside the block. -/

namespace Sys2Proof.Machine

/-- Everything one absorbed byte does. -/
theorem absorbByte_eq (s : State) (x : Byte) :
    absorbByte s x =
      { s with
        S := (absorbByte s x).S, apos := (absorbByte s x).apos,
        scalarPerms := (absorbByte s x).scalarPerms } := by
  unfold absorbByte
  split <;> rfl

/-- Everything `Absorb` does: it writes `S`, `apos` and the count of scalar permutations, and nothing
else (40_lifecycle.md R105, R106). -/
theorem absorb_eq (data : List Byte) (s : State) :
    absorb data s =
      { s with
        S := (absorb data s).S, apos := (absorb data s).apos,
        scalarPerms := (absorb data s).scalarPerms } := by
  unfold absorb
  induction data generalizing s with
  | nil => rfl
  | cons x data ih =>
    have h := ih (absorbByte s x)
    rw [List.foldl_cons]
    generalize data.foldl absorbByte (absorbByte s x) = u at h ⊢
    rw [h]
    unfold absorbByte
    split <;> rfl

@[simp] theorem absorb_nil (s : State) : absorb [] s = s := rfl

theorem absorb_cons (x : Byte) (data : List Byte) (s : State) :
    absorb (x :: data) s = absorb data (absorbByte s x) := rfl

/-- One byte absorbed is one byte absorbed by the sponge at the state's rate (45_external_primitives.md
R214); the position stays inside the block. -/
theorem absorbByte_sponge (s : State) (x : Byte) (h : s.apos.toNat < s.rate.toNat)
    (hr : s.rate.toNat ≤ 200) :
    ((absorbByte s x).S, (absorbByte s x).apos.toNat) =
        spongeAbsorbByte s.rate.toNat (s.S, s.apos.toNat) x ∧
      (absorbByte s x).apos.toNat < s.rate.toNat := by
  have := s.rate.isLt
  unfold absorbByte spongeAbsorbByte
  rw [xorStateByte_of_lt _ _ (show s.apos.toNat < 200 by omega)]
  by_cases hb : s.apos.toNat + 1 = s.rate.toNat
  · simp only [if_pos hb]
    exact ⟨rfl, by simp; omega⟩
  · simp only [if_neg hb]
    have e : (nextApos s).toNat = s.apos.toNat + 1 := by
      rw [nextApos, if_pos (by omega), BitVec.toNat_ofNat, Nat.mod_eq_of_lt (by omega)]
    exact ⟨by rw [e], by rw [e]; omega⟩

@[simp] theorem absorbByte_rate (s : State) (x : Byte) : (absorbByte s x).rate = s.rate := by
  rw [absorbByte_eq]

@[simp] theorem absorb_rate (data : List Byte) (s : State) : (absorb data s).rate = s.rate := by
  rw [absorb_eq]

/-- `Absorb` is the sponge's absorbing (R106, R214), and `0 ≤ apos < rate` holds after it. -/
theorem absorb_sponge (data : List Byte) (s : State) (h : s.apos.toNat < s.rate.toNat)
    (hr : s.rate.toNat ≤ 200) :
    ((absorb data s).S, (absorb data s).apos.toNat) =
        data.foldl (spongeAbsorbByte s.rate.toNat) (s.S, s.apos.toNat) ∧
      (absorb data s).apos.toNat < s.rate.toNat := by
  induction data generalizing s with
  | nil => exact ⟨rfl, h⟩
  | cons x data ih =>
    have h1 := absorbByte_sponge s x h hr
    have h2 := ih (absorbByte s x) (by rw [absorbByte_rate]; exact h1.2)
      (by rw [absorbByte_rate]; exact hr)
    rw [absorbByte_rate, h1.1] at h2
    exact h2

end Sys2Proof.Machine
end

