-- ==== Sys2Proof/Laws/Scheduler.lean ====
section
/-! SUPPORT. The permutation scheduler: what one request does to the lanes and to the buffer's bytes,
and what `PermuteAllLanes()` does, at every width. -/

namespace Sys2Proof.Machine

@[simp] theorem permutedRegion_length (q : Preq) (m : Memory) :
    (permutedRegion q m).length = 200 * q.width.lanes := by simp [permutedRegion]

theorem permutedRegion_getElem (q : Preq) (m : Memory) (t : Nat)
    (h : t < (permutedRegion q m).length) (hw : 0 < q.width.lanes) :
    (permutedRegion q m)[t] =
      (keccakP (regionState q m (t / 8 % q.width.lanes))).byte
        (8 * (t / 8 / q.width.lanes) + t % 8) := by
  have : t / 8 % q.width.lanes < q.width.lanes := Nat.mod_lt _ hw
  simp [permutedRegion, List.getD_eq_getElem?_getD, this]

theorem VectorWidth.lanes_pos (W : VectorWidth) : 0 < W.lanes := by cases W <;> decide

/-- The `k`-th state of a region is lane `BASE + k` (42_permutation_scheduler.md R144). -/
theorem regionState_eq_lane (W : VectorWidth) (m : Memory) {base k : Nat} (hb : base % W.lanes = 0)
    (hle : base + W.lanes ≤ 8) (hk : k < W.lanes) : regionState ⟨W, base⟩ m k = lane W m (base + k) := by
  apply PState.ofBytes_congr
  intro b _
  unfold laneByte byteAddr
  congr 1
  cases W <;> simp only [VectorWidth.lanes, wordIndex] at * <;> omega

/-- The addresses of lane `j` lie in the region of a request exactly when the request holds lane
`j`. -/
theorem byteAddr_mem_region (W : VectorWidth) {base j b : Nat} (hbase : base % W.lanes = 0)
    (hle : base + W.lanes ≤ 8) (hj : j < 8) (hb : b < 200) :
    (200 * base ≤ byteAddr W j b ∧ byteAddr W j b < 200 * base + 200 * W.lanes) ↔
      (base ≤ j ∧ j < base + W.lanes) := by
  cases W <;> simp only [VectorWidth.lanes, byteAddr, wordIndex] at * <;> omega

/-- One request permutes its own lanes and leaves the others alone (R143). -/
theorem lane_permuteRequest (W : VectorWidth) (m : Memory) {base j : Nat}
    (hbase : base % W.lanes = 0) (hle : base + W.lanes ≤ 8) (hj : j < 8) :
    lane W (permuteRequest ⟨W, base⟩ m) j =
      if base ≤ j ∧ j < base + W.lanes then keccakP (lane W m j) else lane W m j := by
  apply PState.ext_bytes
  intro b hb
  rw [lane_byte _ _ _ hb, laneByte, permuteRequest,
    Memory.read_write _ _ _ (by rw [permutedRegion_length]; simp only; omega)]
  simp only [permutedRegion_length]
  by_cases h : base ≤ j ∧ j < base + W.lanes
  · rw [dif_pos ((byteAddr_mem_region W hbase hle hj hb).2 h), if_pos h,
      permutedRegion_getElem _ _ _ _ (VectorWidth.lanes_pos W)]
    have h1 : (byteAddr W j b - 200 * base) / 8 % W.lanes = j - base := by
      cases W <;> simp only [VectorWidth.lanes, byteAddr, wordIndex] at * <;> omega
    have h2 : 8 * ((byteAddr W j b - 200 * base) / 8 / W.lanes) +
        (byteAddr W j b - 200 * base) % 8 = b := by
      cases W <;> simp only [VectorWidth.lanes, byteAddr, wordIndex] at * <;> omega
    simp only [h1, h2]
    rw [regionState_eq_lane W m hbase hle (by omega)]
    congr 3
    omega
  · rw [dif_neg (fun hh => h ((byteAddr_mem_region W hbase hle hj hb).1 hh)), if_neg h,
      lane_byte _ _ _ hb, laneByte]

/-- A request touches no byte outside its region (R144). -/
theorem permuteRequest_read_outside (q : Preq) (m : Memory) (hle : q.base + q.width.lanes ≤ 8)
    {a : Nat} (ha : a < 200 * q.base ∨ 200 * q.base + 200 * q.width.lanes ≤ a) :
    (permuteRequest q m).read a = m.read a := by
  rw [permuteRequest, Memory.read_write _ _ _ (by rw [permutedRegion_length]; omega),
    dif_neg (by rw [permutedRegion_length]; omega)]

theorem permuteRequest_wf {m : Memory} (hm : m.wf) (q : Preq) : Memory.wf (permuteRequest q m) :=
  Memory.write_wf hm _ _

/-- The buffer after the requests of one `PermuteAllLanes()`. -/
def permutedBuffer (W : VectorWidth) (m : Memory) : Memory :=
  (requests W).foldl (fun m q => permuteRequest q m) m

/-- Everything `PermuteAllLanes()` does: it writes the buffer and the trace, and nothing else
(R141). -/
theorem permuteAllLanes_eq (s : State) :
    permuteAllLanes s =
      { s with
        buffer := permutedBuffer s.width s.buffer,
        trace := s.trace ++ (requests s.width).map encodePreq } := by
  have key : ∀ (l : List Preq) (s : State), l.foldl issueRequest s =
      { s with
        buffer := l.foldl (fun m q => permuteRequest q m) s.buffer,
        trace := s.trace ++ l.map encodePreq } := by
    intro l
    induction l with
    | nil => intro s; simp
    | cons q l ih => intro s; rw [List.foldl_cons, ih]; simp [issueRequest]
  exact key _ s

theorem permutedBuffer_wf {m : Memory} (hm : m.wf) (W : VectorWidth) :
    Memory.wf (permutedBuffer W m) := by
  unfold permutedBuffer
  generalize requests W = l
  induction l generalizing m with
  | nil => exact hm
  | cons q l ih => exact ih (permuteRequest_wf hm q)

/-- The effect on the lanes, "the same at every `W`" (R142). -/
theorem lane_permutedBuffer (W : VectorWidth) (m : Memory) {j : Nat} (hj : j < 8) :
    lane W (permutedBuffer W m) j = keccakP (lane W m j) := by
  have key : ∀ n, n * W.lanes ≤ 8 →
      lane W (((List.range n).map fun g => (⟨W, g * W.lanes⟩ : Preq)).foldl
          (fun m q => permuteRequest q m) m) j =
        if j < n * W.lanes then keccakP (lane W m j) else lane W m j := by
    intro n
    induction n with
    | zero => intro _; simp
    | succ n ih =>
      intro hn
      rw [Nat.succ_mul] at hn
      rw [List.range_succ, List.map_append, List.foldl_append, List.map_singleton, List.foldl_cons,
        List.foldl_nil, lane_permuteRequest W _ (Nat.mul_mod_left _ _) (by omega) hj,
        ih (by omega), Nat.succ_mul]
      by_cases h1 : j < n * W.lanes
      · have h3 : j < n * W.lanes + W.lanes := by omega
        simp [h1, h3]
      · by_cases h2 : j < n * W.lanes + W.lanes
        · have h3 : n * W.lanes ≤ j ∧ j < n * W.lanes + W.lanes := by omega
          simp [h1, h2, h3]
        · simp [h1, h2]
  have hW : 8 / W.lanes * W.lanes = 8 := by cases W <;> decide
  have := key (8 / W.lanes) (by omega)
  rw [hW, if_pos hj] at this
  exact this

end Sys2Proof.Machine
end

