-- ==== Sys2Proof/Laws/Expand.lean ====
section
/-! SUPPORT. Lane Expansion: what each of its parts does to the lanes, and everything `EXPAND` does. -/

namespace Sys2Proof.Machine

/-! ## A loop over the lanes -/

/-- A loop `for i = 0 .. n−1` whose pass `i` changes lane `i` only, by `f i`, changes each lane below `n`
once. -/
theorem lane_foldl (W : VectorWidth) (step : Memory → Nat → Memory) (f : Nat → PState → PState)
    (hstep : ∀ m i j, i < 8 → j < 8 →
      lane W (step m i) j = if j = i then f i (lane W m j) else lane W m j)
    (m : Memory) {n j : Nat} (hn : n ≤ 8) (hj : j < 8) :
    lane W ((List.range n).foldl step m) j =
      if j < n then f j (lane W m j) else lane W m j := by
  induction n with
  | zero => simp
  | succ n ih =>
    rw [List.range_succ, List.foldl_append, List.foldl_cons, List.foldl_nil,
      hstep _ n j (by omega) hj, ih (by omega)]
    rcases Nat.lt_trichotomy j n with h | h | h
    · have h2 : j < n + 1 := by omega
      simp [h, Nat.ne_of_lt h, h2]
    · subst h; simp
    · have h1 : ¬ j < n := by omega
      have h2 : ¬ j < n + 1 := by omega
      simp [h1, h2, Nat.ne_of_gt h]

theorem foldl_wf (step : Memory → Nat → Memory) (hstep : ∀ m i, Memory.wf m → Memory.wf (step m i))
    (l : List Nat) {m : Memory} (hm : m.wf) : Memory.wf (l.foldl step m) := by
  induction l generalizing m with
  | nil => exact hm
  | cons i l ih => exact ih (hstep m i hm)

/-! ## The dispatcher and the domain separator (41_lane_expansion.md R124) -/

/-- The buffer after the dispatcher and the domain separator. -/
def dispatchedBuffer (W : VectorWidth) (S : PState) (p : Nat) (m : Memory) : Memory :=
  (List.range Config.lanes).foldl
    (fun m i => xorLaneByte W i p (BitVec.ofNat 8 i) (setLane W i S m)) m

theorem dispatchLanes_eq (s : State) :
    dispatchLanes s =
      { s with buffer := dispatchedBuffer s.width s.S s.apos.toNat s.buffer } := by
  have key : ∀ (l : List Nat) (s : State), l.foldl dispatchLane s =
      { s with
        buffer := l.foldl (fun m i => xorLaneByte s.width i s.apos.toNat (BitVec.ofNat 8 i)
          (setLane s.width i s.S m)) s.buffer } := by
    intro l
    induction l with
    | nil => intro s; rfl
    | cons i l ih => intro s; rw [List.foldl_cons, ih]; rfl
  exact key _ s

theorem lane_dispatchedBuffer (W : VectorWidth) (S : PState) (m : Memory) (p : Nat) {j : Nat}
    (hj : j < 8) :
    lane W (dispatchedBuffer W S p m) j = xorStateByte S p (BitVec.ofNat 8 j) := by
  have := lane_foldl W (fun m i => xorLaneByte W i p (BitVec.ofNat 8 i) (setLane W i S m))
    (fun i _ => xorStateByte S p (BitVec.ofNat 8 i))
    (fun m i j hi hj => by
      rw [lane_xorLaneByte W _ _ _ hi hj, lane_setLane W _ _ hi hj]
      split <;> rfl) m (le_refl 8) hj
  rw [if_pos hj] at this
  exact this

theorem dispatchedBuffer_wf {m : Memory} (hm : m.wf) (W : VectorWidth) (S : PState) (p : Nat) :
    Memory.wf (dispatchedBuffer W S p m) :=
  foldl_wf _ (fun _ _ h => xorLaneByte_wf (setLane_wf h _ _ _) _ _ _ _) _ hm

/-! ## Suffix and padding (R126) -/

/-- The buffer after one byte was exclusive-ored into the same position of every lane. -/
def xoredBuffer (W : VectorWidth) (b : Nat) (x : Byte) (m : Memory) : Memory :=
  (List.range Config.lanes).foldl (fun m i => xorLaneByte W i b x m) m

theorem xorLanes_eq (b : Nat) (x : Byte) (s : State) :
    xorLanes b x s = { s with buffer := xoredBuffer s.width b x s.buffer } := by
  have key : ∀ (l : List Nat) (s : State),
      l.foldl (fun s i => { s with buffer := xorLaneByte s.width i b x s.buffer }) s =
        { s with buffer := l.foldl (fun m i => xorLaneByte s.width i b x m) s.buffer } := by
    intro l
    induction l with
    | nil => intro s; rfl
    | cons i l ih => intro s; rw [List.foldl_cons, ih]; rfl
  exact key _ s

theorem lane_xoredBuffer (W : VectorWidth) (b : Nat) (x : Byte) (m : Memory) {j : Nat} (hj : j < 8) :
    lane W (xoredBuffer W b x m) j = xorStateByte (lane W m j) b x := by
  have := lane_foldl W (fun m i => xorLaneByte W i b x m) (fun _ v => xorStateByte v b x)
    (fun m i j hi hj => lane_xorLaneByte W b x m hi hj) m (le_refl 8) hj
  rw [if_pos hj] at this
  exact this

theorem xoredBuffer_wf {m : Memory} (hm : m.wf) (W : VectorWidth) (b : Nat) (x : Byte) :
    Memory.wf (xoredBuffer W b x m) :=
  foldl_wf _ (fun _ _ h => xorLaneByte_wf h _ _ _ _) _ hm

/-- With `DSUFFIX = 0x1F` the source's overflow test is never true (R127). -/
theorem padLanes_eq (p : Nat) (s : State) :
    padLanes p s =
      { s with
        buffer := xoredBuffer s.width (lastIndex s.rate.toNat) padend
          (xoredBuffer s.width p dsuffix s.buffer) } := by
  have h : ¬ (0x80 ≤ dsuffix.toNat ∧ p = lastIndex s.rate.toNat) := fun h => absurd h.1 (by decide)
  unfold padLanes
  simp only [if_neg h, xorLanes_eq]

/-! ## EXPAND (R123) -/

/-- How many `PermuteAllLanes()` one `EXPAND` performs (R131). -/
def expandBatches (s : State) : Nat := if s.apos.toNat + 1 = s.rate.toNat then 2 else 1

/-- The descriptors of `k` times `PermuteAllLanes()` (42_permutation_scheduler.md R143). -/
def batchTrace (W : VectorWidth) (k : Nat) : List (BitVec 8) :=
  (List.replicate k ((requests W).map encodePreq)).flatten

theorem batchTrace_add (W : VectorWidth) (a b : Nat) :
    batchTrace W (a + b) = batchTrace W a ++ batchTrace W b := by
  unfold batchTrace
  rw [List.replicate_add, List.flatten_append]

@[simp] theorem batchTrace_zero (W : VectorWidth) : batchTrace W 0 = [] := rfl

theorem batchTrace_one (W : VectorWidth) : batchTrace W 1 = (requests W).map encodePreq := by
  simp [batchTrace]

/-- The buffer after `EXPAND`. -/
def expandedBuffer (s : State) : Memory :=
  let m1 := dispatchedBuffer s.width s.S s.apos.toNat s.buffer
  let pad := fun p m =>
    xoredBuffer s.width (lastIndex s.rate.toNat) padend (xoredBuffer s.width p dsuffix m)
  permutedBuffer s.width
    (if s.apos.toNat + 1 = s.rate.toNat then pad 0 (permutedBuffer s.width m1)
      else pad (s.apos.toNat + 1) m1)

/-- Everything `EXPAND` does: it writes the buffer, `cursor`, `mode` and the trace, and nothing else
(R122). -/
theorem expandLanes_eq (s : State) :
    expandLanes s =
      { s with
        buffer := expandedBuffer s, cursor := 0#11, mode := .squeezing,
        trace := s.trace ++ batchTrace s.width (expandBatches s) } := by
  unfold expandLanes expandedBuffer expandBatches finalizeMark
  by_cases h : s.apos.toNat + 1 = s.rate.toNat
  · simp only [if_pos h, dispatchLanes_eq, padLanes_eq, permuteAllLanes_eq]
    rw [show (2 : Nat) = 1 + 1 from rfl, batchTrace_add, batchTrace_one, List.append_assoc]
  · simp only [if_neg h, dispatchLanes_eq, padLanes_eq, permuteAllLanes_eq, batchTrace_one]

/-- What `EXPAND` makes of lane `j`, whatever the registers hold (R123). -/
def expandedLane (rate apos : Nat) (S : PState) (j : Nat) : PState :=
  let v := xorStateByte S apos (BitVec.ofNat 8 j)
  let pad := fun p v => xorStateByte (xorStateByte v p dsuffix) (lastIndex rate) padend
  keccakP (if apos + 1 = rate then pad 0 (keccakP v) else pad (apos + 1) v)

/-- `EXPAND` leaves in lane `j` a function of `rate`, `apos` and `S`, the same at every width. -/
theorem lane_expandedBuffer_eq (s : State) {j : Nat} (hj : j < 8) :
    lane s.width (expandedBuffer s) j = expandedLane s.rate.toNat s.apos.toNat s.S j := by
  unfold expandedBuffer expandedLane
  by_cases h : s.apos.toNat + 1 = s.rate.toNat
  · simp only [if_pos h]
    rw [lane_permutedBuffer _ _ hj, lane_xoredBuffer _ _ _ _ hj, lane_xoredBuffer _ _ _ _ hj,
      lane_permutedBuffer _ _ hj, lane_dispatchedBuffer _ _ _ _ hj]
  · simp only [if_neg h]
    rw [lane_permutedBuffer _ _ hj, lane_xoredBuffer _ _ _ _ hj, lane_xoredBuffer _ _ _ _ hj,
      lane_dispatchedBuffer _ _ _ _ hj]

/-- From registers in range it is the sponge position with the byte `j` absorbed, padded and permuted
(R123 to R128). -/
theorem lane_expandedBuffer (s : State) (hp : s.apos.toNat < s.rate.toNat)
    (hr : s.rate.toNat ≤ 200) {j : Nat} (hj : j < 8) :
    lane s.width (expandedBuffer s) j =
      spongePad s.rate.toNat
        (spongeAbsorbByte s.rate.toNat (s.S, s.apos.toNat) (BitVec.ofNat 8 j)) := by
  have hl : lastIndex s.rate.toNat = s.rate.toNat - 1 := if_neg (by omega)
  rw [lane_expandedBuffer_eq s hj]
  unfold expandedLane spongePad spongeAbsorbByte
  rw [xorStateByte_of_lt _ _ (show s.apos.toNat < 200 by omega)]
  by_cases h : s.apos.toNat + 1 = s.rate.toNat
  · simp only [if_pos h, hl]
    rw [xorStateByte_of_lt _ _ (show s.rate.toNat - 1 < 200 by omega),
      xorStateByte_of_lt _ _ (show 0 < 200 by omega)]
    rfl
  · simp only [if_neg h, hl]
    rw [xorStateByte_of_lt _ _ (show s.rate.toNat - 1 < 200 by omega),
      xorStateByte_of_lt _ _ (show s.apos.toNat + 1 < 200 by omega)]
    rfl

theorem expandedBuffer_wf {s : State} (hm : s.buffer.wf) : Memory.wf (expandedBuffer s) := by
  unfold expandedBuffer
  have h1 := dispatchedBuffer_wf hm s.width s.S s.apos.toNat
  refine permutedBuffer_wf ?_ _
  split
  · exact xoredBuffer_wf (xoredBuffer_wf (permutedBuffer_wf h1 _) _ _ _) _ _ _
  · exact xoredBuffer_wf (xoredBuffer_wf h1 _ _ _) _ _ _

end Sys2Proof.Machine
end

