-- ==== Sys2Proof/Laws/Deliver.lean ====
section
/-! SUPPORT. The delivery loop in closed form: the bytes delivered, the re-permutations and the
cursor. -/

namespace Sys2Proof.Machine

/-- The byte `u` places after the start of the current super-block: block `u div 8·rate` of the lanes'
future, canonical offset `u mod 8·rate` (43_parallel_squeeze.md R166, 44_reference_stream.md R192). -/
def upcomingByte (s : State) (u : Nat) : Byte :=
  (keccakP^[u / (8 * s.rate.toNat)]
      (lane s.width s.buffer (canonicalLane (u % (8 * s.rate.toNat))))).byte
    (canonicalByte (u % (8 * s.rate.toNat)))

/-- How many re-permutations a delivery of `n` bytes performs (43_parallel_squeeze.md R172). -/
def refillsFor (s : State) (n : Nat) : Nat :=
  if n = 0 then 0 else (s.cursor.toNat + n - 1) / (8 * s.rate.toNat)

/-- The cursor after a delivery of `n` bytes (R172). -/
def cursorAfter (s : State) (n : Nat) : Nat :=
  if n = 0 then s.cursor.toNat else (s.cursor.toNat + n - 1) % (8 * s.rate.toNat) + 1

theorem lane_iterate_permutedBuffer (W : VectorWidth) (m : Memory) (k : Nat) {j : Nat} (hj : j < 8) :
    lane W ((permutedBuffer W)^[k] m) j = keccakP^[k] (lane W m j) := by
  induction k generalizing m with
  | zero => rfl
  | succ k ih =>
    rw [Function.iterate_succ_apply, ih, lane_permutedBuffer W m hj, ← Function.iterate_succ_apply]

theorem iterate_permutedBuffer_wf {m : Memory} (hm : m.wf) (W : VectorWidth) (k : Nat) :
    Memory.wf ((permutedBuffer W)^[k] m) := by
  induction k generalizing m with
  | zero => exact hm
  | succ k ih => exact ih (permutedBuffer_wf hm W)

/-- The re-permutation sequencer writes the buffer, the trace and `cursor`, and only when the
super-block is exhausted (R164). -/
theorem refill_eq (s : State) :
    refill s =
      if s.cursor.toNat = 8 * s.rate.toNat then
        { s with
          buffer := permutedBuffer s.width s.buffer, cursor := 0#11,
          trace := s.trace ++ batchTrace s.width 1 }
      else s := by
  unfold refill
  rw [permuteAllLanes_eq, batchTrace_one]

/-- A pass reads bytes of the current super-block only (R165). -/
theorem sbByte_upcoming (s : State) {c : Nat} (hr : s.rate.toNat ≤ 200) (hc : c < 8 * s.rate.toNat) :
    sbByte s c = upcomingByte s c := by
  rw [sbByte_of_lt s hr hc, upcomingByte, Nat.div_eq_of_lt hc,
    Nat.mod_eq_of_lt hc]
  rfl

/-! ## What delivery does whatever the registers hold -/

/-- A pass delivers at least one byte. -/
theorem passLength_pos (s : State) {n : Nat} (hn : 0 < n) : 0 < passLength s n := by
  unfold passLength available Config.gran
  split <;> omega

theorem passLength_le (s : State) (n : Nat) : passLength s n ≤ n := Nat.min_le_right _ _

/-- A delivery of `n` bytes returns exactly `n` bytes (R160). -/
theorem deliverLoop_length (fuel n : Nat) (s : State) (hn : n ≤ fuel) :
    (deliverLoop fuel n s).1.length = n := by
  induction fuel generalizing n s with
  | zero =>
    obtain rfl : n = 0 := by omega
    rfl
  | succ fuel ih =>
    unfold deliverLoop
    by_cases h : n = 0
    · rw [if_pos h, h]; rfl
    · have h0 := passLength_pos (refill s) (show 0 < n by omega)
      have hle := passLength_le (refill s) n
      rw [if_neg h]
      simp only [List.length_append, serialize, List.length_map, List.length_range]
      rw [ih _ _ (by omega)]
      omega

/-- A delivery writes the buffer, `cursor` and the trace, and nothing else (R160). -/
theorem deliverLoop_frame (fuel n : Nat) (s : State) :
    (deliverLoop fuel n s).2 =
      { s with
        buffer := (deliverLoop fuel n s).2.buffer, cursor := (deliverLoop fuel n s).2.cursor,
        trace := (deliverLoop fuel n s).2.trace } := by
  induction fuel generalizing n s with
  | zero => rfl
  | succ fuel ih =>
    unfold deliverLoop
    by_cases h : n = 0
    · rw [if_pos h]
    · rw [if_neg h]
      simp only
      have h2 := ih (n - passLength (refill s) n) (advance (refill s) (passLength (refill s) n))
      generalize (deliverLoop fuel _ _).2 = u at h2 ⊢
      rw [h2, refill_eq]
      split <;> rfl

/-- A delivery keeps the buffer in its canonical form. -/
theorem deliverLoop_wf (fuel n : Nat) {s : State} (hm : s.buffer.wf) :
    Memory.wf (deliverLoop fuel n s).2.buffer := by
  induction fuel generalizing n s with
  | zero => exact hm
  | succ fuel ih =>
    unfold deliverLoop
    by_cases h : n = 0
    · rw [if_pos h]; exact hm
    · rw [if_neg h]
      refine ih _ ?_
      rw [advance_buffer, refill_eq]
      split
      · exact permutedBuffer_wf hm _
      · exact hm

/-- Two states a delivery cannot tell apart: equal `rate` and `cursor`, and the same lanes. -/
structure DeliversAlike (s s' : State) : Prop where
  rate : s.rate = s'.rate
  cursor : s.cursor = s'.cursor
  lanes : ∀ j < 8, lane s.width s.buffer j = lane s'.width s'.buffer j

theorem DeliversAlike.refill {s s' : State} (h : DeliversAlike s s') :
    DeliversAlike (refill s) (refill s') := by
  rw [refill_eq, refill_eq, ← h.rate, ← h.cursor]
  split
  · exact ⟨rfl, rfl, fun j hj => by
      simp only [lane_permutedBuffer _ _ hj, h.lanes j hj]⟩
  · exact h

theorem DeliversAlike.passLength {s s' : State} (h : DeliversAlike s s') (n : Nat) :
    passLength s n = passLength s' n := by
  unfold Machine.passLength available
  rw [h.rate, h.cursor]

theorem DeliversAlike.advance {s s' : State} (h : DeliversAlike s s') (d : Nat) :
    DeliversAlike (advance s d) (advance s' d) :=
  ⟨h.rate, by rw [advance_cursor, advance_cursor, h.rate, h.cursor], h.lanes⟩

theorem DeliversAlike.serialize {s s' : State} (h : DeliversAlike s s') (d : Nat) :
    serialize s d = serialize s' d := by
  apply List.map_congr_left
  intro t _
  rw [h.cursor, sbByte_congr h.rate h.lanes]

/-- A delivery reads `rate`, `cursor` and the lanes only, through the lane view, so the width does not
show (R160, 42_permutation_scheduler.md R145). -/
theorem deliverLoop_alike (fuel n : Nat) {s s' : State} (h : DeliversAlike s s') :
    (deliverLoop fuel n s).1 = (deliverLoop fuel n s').1 ∧
      DeliversAlike (deliverLoop fuel n s).2 (deliverLoop fuel n s').2 := by
  induction fuel generalizing n s s' with
  | zero => exact ⟨rfl, h⟩
  | succ fuel ih =>
    unfold deliverLoop
    by_cases hn : n = 0
    · rw [if_pos hn, if_pos hn]; exact ⟨rfl, h⟩
    · rw [if_neg hn, if_neg hn]
      simp only
      rw [← h.refill.passLength, h.refill.serialize]
      have := ih (n - Machine.passLength (Machine.refill s) n)
        (h.refill.advance (Machine.passLength (Machine.refill s) n))
      exact ⟨by rw [this.1], this.2⟩

/-! ## The closed form, from legal registers -/

/-- Everything the delivery loop does, in closed form, from a cursor the spec allows (R163, R166,
R172): the bytes, and the new buffer, cursor and trace; it writes nothing else. -/
theorem deliverLoop_eq (fuel n : Nat) (s : State) (hn : n ≤ fuel) (h0 : 0 < s.rate.toNat)
    (hr : s.rate.toNat ≤ 200) (hc : s.cursor.toNat ≤ 8 * s.rate.toNat) :
    deliverLoop fuel n s =
      ((List.range n).map fun t => upcomingByte s (s.cursor.toNat + t),
        { s with
          buffer := (permutedBuffer s.width)^[refillsFor s n] s.buffer,
          cursor := BitVec.ofNat 11 (cursorAfter s n),
          trace := s.trace ++ batchTrace s.width (refillsFor s n) }) := by
  induction fuel generalizing n s with
  | zero =>
    obtain rfl : n = 0 := by omega
    simp [deliverLoop, refillsFor, cursorAfter]
  | succ fuel ih =>
    unfold deliverLoop
    by_cases h : n = 0
    · subst h
      simp [refillsFor, cursorAfter]
    · rw [if_neg h]
      -- the state at the start of the pass, past the sequencer
      obtain ⟨s1, hs1⟩ : ∃ s1, s1 = refill s := ⟨_, rfl⟩
      have hcase : (s.cursor.toNat = 8 * s.rate.toNat ∧ s1 = { s with
            buffer := permutedBuffer s.width s.buffer, cursor := 0#11,
            trace := s.trace ++ batchTrace s.width 1 }) ∨
          (s.cursor.toNat < 8 * s.rate.toNat ∧ s1 = s) := by
        rw [refill_eq] at hs1
        by_cases hfull : s.cursor.toNat = 8 * s.rate.toNat
        · rw [if_pos hfull] at hs1; exact Or.inl ⟨hfull, hs1⟩
        · rw [if_neg hfull] at hs1; exact Or.inr ⟨by omega, hs1⟩
      have hrate : s1.rate = s.rate := by rcases hcase with ⟨_, e⟩ | ⟨_, e⟩ <;> rw [e]
      have hlt : s1.cursor.toNat < 8 * s.rate.toNat := by
        rcases hcase with ⟨_, e⟩ | ⟨hl, e⟩ <;> rw [e]
        · simp; omega
        · exact hl
      have havail : available s1 = 8 * s.rate.toNat - s1.cursor.toNat := by
        unfold available; rw [hrate, if_pos hlt]
      have hd0 : 0 < passLength s1 n := passLength_pos s1 (by omega)
      have hdn : passLength s1 n ≤ n := passLength_le s1 n
      have hdc : s1.cursor.toNat + passLength s1 n ≤ 8 * s.rate.toNat := by
        unfold passLength; rw [havail]; omega
      have hcur : (advance s1 (passLength s1 n)).cursor.toNat =
          s1.cursor.toNat + passLength s1 n := by
        rw [advance_cursor, if_pos (by omega), BitVec.toNat_ofNat, Nat.mod_eq_of_lt (by omega)]
      have hmin : passLength s1 n = n ∨
          s1.cursor.toNat + passLength s1 n = 8 * s.rate.toNat := by
        unfold passLength; rw [havail]; omega
      simp only [← hs1]
      rw [ih (n - passLength s1 n) (advance s1 (passLength s1 n)) (by omega)
        (by simpa [hrate] using h0) (by simpa [hrate] using hr)
        (by rw [hcur, advance_rate, hrate]; exact hdc)]
      generalize hdd : passLength s1 n = d at *
      -- the upcoming bytes of the pass's state are those of `s`, counted from `s`'s cursor
      have hup : ∀ t, upcomingByte s1 (s1.cursor.toNat + t) =
          upcomingByte s (s.cursor.toNat + t) := by
        intro t
        rcases hcase with ⟨hfull, e⟩ | ⟨_, e⟩
        · subst e
          unfold upcomingByte
          simp only [BitVec.toNat_ofNat, Nat.zero_mod, Nat.zero_add]
          rw [lane_permutedBuffer _ _ (canonicalLane_lt _), ← Function.iterate_succ_apply, hfull,
            Nat.add_mod_left, Nat.add_div_left _ (by omega)]
        · rw [e]
      have hadv : ∀ u, upcomingByte (advance s1 d) u = upcomingByte s1 u := fun u => rfl
      have hk : (advance s1 d).cursor.toNat = s1.cursor.toNat + d := hcur
      refine Prod.ext ?_ ?_
      · -- the bytes
        simp only [serialize, hadv, hk]
        have hsplit : n = d + (n - d) := by omega
        conv_rhs => rw [hsplit, List.range_add, List.map_append, List.map_map]
        congr 1
        · apply List.map_congr_left
          intro t ht
          have : t < d := List.mem_range.1 ht
          rw [sbByte_upcoming s1 (by rw [hrate]; exact hr) (by rw [hrate]; omega), hup]
        · apply List.map_congr_left
          intro t _
          simp only [Function.comp_apply]
          rw [Nat.add_assoc, hup]
      · -- the state
        simp only
        have hT : 0 < 8 * s.rate.toNat := by omega
        have hcount : refillsFor s n =
              (if s.cursor.toNat = 8 * s.rate.toNat then 1 else 0) +
                refillsFor (advance s1 d) (n - d) ∧
            cursorAfter s n = cursorAfter (advance s1 d) (n - d) := by
          unfold refillsFor cursorAfter
          simp only [hk, advance_rate, hrate, if_neg h]
          rcases hcase with ⟨hfull, e⟩ | ⟨hl, e⟩
          · have hz : s1.cursor.toNat = 0 := by rw [e]; rfl
            have hdl : d ≤ 8 * s.rate.toNat := by omega
            rw [if_pos hfull, hz, hfull]
            by_cases hnd : n - d = 0
            · have : n = d := by omega
              subst this
              have e1 : 8 * s.rate.toNat + n - 1 = 8 * s.rate.toNat + (n - 1) := by omega
              rw [if_pos hnd, if_pos hnd, e1, Nat.add_div_left _ hT, Nat.add_mod_left,
                Nat.div_eq_of_lt (by omega), Nat.mod_eq_of_lt (by omega)]
              omega
            · have e1 : 8 * s.rate.toNat + n - 1 = 8 * s.rate.toNat + (n - 1) := by omega
              have e2 : 0 + d + (n - d) - 1 = n - 1 := by omega
              rw [if_neg hnd, if_neg hnd, e1, e2, Nat.add_div_left _ hT, Nat.add_mod_left]
              omega
          · rw [if_neg (by omega), e]
            by_cases hnd : n - d = 0
            · have : n = d := by omega
              subst this
              rw [e] at hdc
              rw [if_pos hnd, if_pos hnd, Nat.div_eq_of_lt (by omega), Nat.mod_eq_of_lt (by omega)]
              omega
            · have e2 : s.cursor.toNat + d + (n - d) - 1 = s.cursor.toNat + n - 1 := by omega
              rw [if_neg hnd, if_neg hnd, e2]
              omega
        rw [hcount.1, hcount.2]
        rcases hcase with ⟨hfull, e⟩ | ⟨hl, e⟩
        · rw [if_pos hfull]
          generalize refillsFor (advance s1 d) (n - d) = k
          generalize cursorAfter (advance s1 d) (n - d) = c
          subst e
          simp only [advance_buffer, advance_width, advance_trace]
          rw [Nat.add_comm 1 k, Function.iterate_succ_apply, Nat.add_comm k 1, batchTrace_add,
            ← List.append_assoc]
          rfl
        · rw [if_neg (by omega), Nat.zero_add, e]
          rfl

theorem deliver_eq (n : Nat) (s : State) (h0 : 0 < s.rate.toNat) (hr : s.rate.toNat ≤ 200)
    (hc : s.cursor.toNat ≤ 8 * s.rate.toNat) :
    deliver n s =
      ((List.range n).map fun t => upcomingByte s (s.cursor.toNat + t),
        { s with
          buffer := (permutedBuffer s.width)^[refillsFor s n] s.buffer,
          cursor := BitVec.ofNat 11 (cursorAfter s n),
          trace := s.trace ++ batchTrace s.width (refillsFor s n) }) :=
  deliverLoop_eq n n s (le_refl n) h0 hr hc

end Sys2Proof.Machine
end

