-- ==== Sys2Proof/Laws/PerInstr.lean ====
section
/-! SUPPORT. Statements about every instruction as syntax, one lemma per constructor. -/

namespace Sys2Proof.Laws.EncodePresentable

/-- What the encoder makes of a well-formed instruction can be presented to the engine: its payload is
as long as its word announces (30_encoding.md R84). -/
def Statement (i : Instr) : Prop :=
  i.wellFormed = true → ∀ t, encode i = some t → t.presentable = true

theorem init128 : Statement .init128 := by
  rintro _ t ⟨⟩
  decide

theorem init256 : Statement .init256 := by
  rintro _ t ⟨⟩
  decide

theorem update (data : List Byte) : Statement (.update data) := by
  rintro hw t ⟨⟩
  have hl : data.length < 2 ^ 28 := of_decide_eq_true hw
  have h1 : opField (3#4 ++ BitVec.ofNat 28 data.length) = 3#4 := by
    unfold opField
    rw [BitVec.extractLsb'_append_eq_left]
  have h2 : argField (3#4 ++ BitVec.ofNat 28 data.length) = BitVec.ofNat 28 data.length := by
    unfold argField
    rw [BitVec.extractLsb'_append_eq_right]
  simp only [Transaction.presentable, payloadLength, h1, h2, if_pos, BitVec.toNat_ofNat,
    Nat.mod_eq_of_lt hl, decide_true]

theorem squeeze (n : BitVec 28) : Statement (.squeeze n) := by
  rintro _ t ⟨⟩
  have h1 : opField (4#4 ++ n) = 4#4 := by
    unfold opField
    rw [BitVec.extractLsb'_append_eq_left]
  simp [Transaction.presentable, payloadLength, h1]

theorem finalize : Statement .finalize := by
  rintro _ t ⟨⟩

theorem expand : Statement .expand := by
  rintro _ t ⟨⟩

theorem permall : Statement .permall := by
  rintro _ t ⟨⟩

end Sys2Proof.Laws.EncodePresentable
end

