-- ==== Sys2Proof/Laws/Encoding.lean ====
section
/-! SUPPORT. The two fields of a command word, and when the decoder accepts a transaction. -/

namespace Sys2Proof

@[simp] theorem opField_append (o : BitVec 4) (n : BitVec 28) : opField (o ++ n) = o := by
  unfold opField
  rw [BitVec.extractLsb'_append_eq_left]

@[simp] theorem argField_append (o : BitVec 4) (n : BitVec 28) : argField (o ++ n) = n := by
  unfold argField
  rw [BitVec.extractLsb'_append_eq_right]

/-- A command word is its two fields (30_encoding.md R82). -/
theorem opField_append_argField (w : BitVec 32) : opField w ++ argField w = w := by
  apply BitVec.eq_of_getLsbD_eq
  intro i hi
  simp only [opField, argField, BitVec.getLsbD_append, BitVec.getLsbD_extractLsb']
  by_cases h : i < 28
  · simp [h]
  · have h1 : 28 + (i - 28) = i := by omega
    have h2 : i - 28 < 4 := by omega
    simp [h, h1, h2]

theorem opField_toNat (w : BitVec 32) : (opField w).toNat = w.toNat / 2 ^ 28 := by
  have := w.isLt
  simp [opField, Nat.shiftRight_eq_div_pow]
  omega

theorem argField_toNat (w : BitVec 32) : (argField w).toNat = w.toNat % 2 ^ 28 := by
  simp [argField]

theorem presentable_iff (t : Transaction) :
    t.presentable = true ↔ t.payload.length = payloadLength t.word := decide_eq_true_iff

end Sys2Proof
end

