-- ==== Sys2Proof/Laws/Flags.lean ====
section
/-! SUPPORT. The conditions the commands test, as propositions, and the bounds they give. -/

namespace Sys2Proof.Machine

/-- The bounds while the mode is Absorbing. -/
theorem registersInRange_absorbing {s : State} (hm : s.mode = .absorbing) :
    registersInRange s = true ↔ s.rate.toNat ≤ 200 ∧ s.apos.toNat < s.rate.toNat := by
  simp only [registersInRange, hm, Bool.and_eq_true, decide_eq_true_eq, Config.stateBytes]

/-- The bounds in Squeezing mode. -/
theorem registersInRange_squeezing {s : State} (hm : s.mode = .squeezing) :
    registersInRange s = true ↔
      s.rate.toNat ≤ 200 ∧ 0 < s.rate.toNat ∧ s.cursor.toNat ≤ 8 * s.rate.toNat := by
  simp only [registersInRange, hm, Bool.and_eq_true, decide_eq_true_eq, Config.stateBytes]

theorem lengthMisaligned_iff (n : BitVec 28) :
    lengthMisaligned n = true ↔ n.toNat % 64 ≠ 0 := by
  simp only [lengthMisaligned, decide_eq_true_eq]
  exact Iff.rfl

theorem squeezingBegun_iff (s : State) : squeezingBegun s = true ↔ s.mode = .squeezing := by
  simp [squeezingBegun]

theorem Mode.eq_absorbing_iff (m : Mode) : m = .absorbing ↔ ¬ m = .squeezing := by
  cases m <;> decide

/-- `Deliver` from registers in range, in closed form. -/
theorem deliver_eq_of_inRange (n : Nat) {s : State} (hm : s.mode = .squeezing)
    (h : registersInRange s = true) :
    deliver n s =
      ((List.range n).map fun t => upcomingByte s (s.cursor.toNat + t),
        { s with
          buffer := (permutedBuffer s.width)^[refillsFor s n] s.buffer,
          cursor := BitVec.ofNat 11 (cursorAfter s n),
          trace := s.trace ++ batchTrace s.width (refillsFor s n) }) := by
  obtain ⟨hr, h0, hc⟩ := (registersInRange_squeezing hm).1 h
  exact deliver_eq n s h0 hr hc

/-- `EXPAND` in Absorbing mode keeps the registers in range. -/
theorem expandLanes_inRange {s : State} (hm : s.mode = .absorbing)
    (h : registersInRange s = true) : registersInRange (expandLanes s) = true := by
  obtain ⟨hr, ha⟩ := (registersInRange_absorbing hm).1 h
  rw [expandLanes_eq, registersInRange_squeezing rfl]
  exact ⟨hr, show 0 < s.rate.toNat by omega, Nat.zero_le _⟩

/-- The cursor after a delivery fits its 11 bits and is in its range (00_scope.md R13). -/
theorem cursorAfter_le {s : State} (hm : s.mode = .squeezing) (h : registersInRange s = true)
    (n : Nat) : cursorAfter s n ≤ 8 * s.rate.toNat ∧ cursorAfter s n < 2 ^ 11 := by
  obtain ⟨hr, h0, hc⟩ := (registersInRange_squeezing hm).1 h
  unfold cursorAfter
  split
  · omega
  · have := Nat.mod_lt (s.cursor.toNat + n - 1) (show 0 < 8 * s.rate.toNat by omega)
    omega

end Sys2Proof.Machine
end

