-- ==== Sys2Proof/Laws/Step.lean ====
section
/-! SUPPORT. Everything an instruction and a step can do, said once: the cases of `exec` for each
instruction, and of `step`. -/

namespace Sys2Proof.Machine

/-- An `UPDATE` ends in one of two ways. -/
theorem execUpdate_cases (data : List Byte) (s : State) :
    ((s.valid = false ∨ s.mode = .squeezing) ∧ execUpdate data s = raise .invalidState s) ∨
    (s.valid = true ∧ s.mode = .absorbing ∧ execUpdate data s = finish [] (absorb data s)) := by
  unfold execUpdate notInitialised squeezingBegun
  cases s.valid <;> cases s.mode <;> simp

/-- An `EXPAND` ends in one of two ways. -/
theorem execExpand_cases (s : State) :
    (s.mode = .squeezing ∧ execExpand s = raise .invalidState s) ∨
    (s.mode = .absorbing ∧ execExpand s = .next (expandLanes s)) := by
  unfold execExpand squeezingBegun
  cases s.mode <;> simp

/-- What the delivery of a `SQUEEZE` starts from: the state itself, or the expanded one. -/
theorem expandIfAbsorbing_cases (s : State) :
    (s.mode = .squeezing ∧ expandIfAbsorbing s = s) ∨
      (s.mode = .absorbing ∧ expandIfAbsorbing s = expandLanes s) := by
  unfold expandIfAbsorbing squeezingBegun
  cases s.mode <;> simp

theorem expandIfAbsorbing_mode (s : State) : (expandIfAbsorbing s).mode = .squeezing := by
  rcases expandIfAbsorbing_cases s with ⟨h, e⟩ | ⟨_, e⟩ <;> rw [e]
  · exact h
  · rw [expandLanes_eq]

theorem expandIfAbsorbing_inRange {s : State} (h : registersInRange s = true) :
    registersInRange (expandIfAbsorbing s) = true := by
  rcases expandIfAbsorbing_cases s with ⟨_, e⟩ | ⟨hm, e⟩ <;> rw [e]
  · exact h
  · exact expandLanes_inRange hm h

/-- Everything a `SQUEEZE` can write past its checks: the buffer, `cursor`, `mode`, the trace and the
response (43_parallel_squeeze.md R160). -/
theorem deliver_expandIfAbsorbing_frame (n : Nat) (s : State) :
    (deliver n (expandIfAbsorbing s)).2 =
      { s with
        buffer := (deliver n (expandIfAbsorbing s)).2.buffer,
        cursor := (deliver n (expandIfAbsorbing s)).2.cursor,
        trace := (deliver n (expandIfAbsorbing s)).2.trace, mode := .squeezing } := by
  have h := deliverLoop_frame n n (expandIfAbsorbing s)
  unfold deliver
  rw [h]
  rcases expandIfAbsorbing_cases s with ⟨hm, e⟩ | ⟨_, e⟩ <;> rw [e]
  · rw [← hm]
  · rw [expandLanes_eq]

/-- A `SQUEEZE` ends in one of three ways. -/
theorem execSqueeze_cases (n : BitVec 28) (s : State) :
    (s.valid = false ∧ execSqueeze n s = raise .invalidState s) ∨
    (s.valid = true ∧ n.toNat % 64 ≠ 0 ∧ execSqueeze n s = raise .invalidLength s) ∨
    (s.valid = true ∧ n.toNat % 64 = 0 ∧
      execSqueeze n s =
        finish (deliver n.toNat (expandIfAbsorbing s)).1
          (deliver n.toNat (expandIfAbsorbing s)).2) := by
  unfold execSqueeze notInitialised
  by_cases h : n.toNat % 64 = 0
  · have hm : lengthMisaligned n = false := by
      rw [← Bool.not_eq_true, lengthMisaligned_iff]; simpa using h
    cases s.valid <;> simp [h, hm, squeezeLength]
  · have hm : lengthMisaligned n = true := (lengthMisaligned_iff n).2 h
    cases s.valid <;> simp [h, hm]

/-- `UPDATE` where it runs. -/
theorem exec_update_of_absorbing {s : State} (data : List Byte) (hv : s.valid = true)
    (hm : s.mode = .absorbing) : exec (.update data) s = .next ((absorb data s).respond .ok []) := by
  rcases execUpdate_cases data s with ⟨h, _⟩ | ⟨_, _, e⟩
  · simp [hv, hm] at h
  · exact e

/-- `EXPAND` where it runs. -/
theorem exec_expand_of_absorbing {s : State} (hm : s.mode = .absorbing) :
    exec .expand s = .next (expandLanes s) := by
  rcases execExpand_cases s with ⟨h, _⟩ | ⟨_, e⟩
  · simp [hm] at h
  · exact e

/-- `SQUEEZE` where it runs. -/
theorem exec_squeeze_of_aligned {s : State} {n : BitVec 28} (hv : s.valid = true)
    (hn : n.toNat % 64 = 0) :
    exec (.squeeze n) s =
      finish (deliver n.toNat (expandIfAbsorbing s)).1
        (deliver n.toNat (expandIfAbsorbing s)).2 := by
  rcases execSqueeze_cases n s with ⟨h, _⟩ | ⟨_, h, _⟩ | ⟨_, _, e⟩
  · simp [hv] at h
  · exact absurd hn h
  · exact e

/-- A step either waits, runs the instruction a transaction spells, rejects an illegal word, refuses a
malformed transaction, or takes a power-on reset. -/
theorem step_cases (s : State) :
    (s.inbox = [] ∧ step s = .next s) ∨
    (∃ t rest i, s.inbox = .command t :: rest ∧ decode t = .ok i ∧
      step s = exec i { s with inbox := rest }) ∨
    (∃ t rest, s.inbox = .command t :: rest ∧ decode t = .error .invalidCommand ∧
      step s = raise .invalidCommand { s with inbox := rest }) ∨
    (∃ t rest, s.inbox = .command t :: rest ∧ decode t = .error .malformedPayload ∧
      step s = .refused .malformedTransaction) ∨
    (∃ rest, s.inbox = .powerOn :: rest ∧
      step s = .next (powerOnReset { s with inbox := rest })) := by
  unfold step
  split
  · exact Or.inl ⟨by assumption, rfl⟩
  · rename_i t rest h
    refine Or.inr ?_
    unfold runTransaction
    split
    · exact Or.inl ⟨t, rest, _, h, by assumption, rfl⟩
    · exact Or.inr (Or.inl ⟨t, rest, h, by assumption, rfl⟩)
    · exact Or.inr (Or.inr (Or.inl ⟨t, rest, h, by assumption, rfl⟩))
  · rename_i rest h
    exact Or.inr (Or.inr (Or.inr (Or.inr ⟨rest, h, rfl⟩)))

/-- A power-on reset leaves a buffer in its canonical form. -/
theorem unspecifiedBuffer_wf (W : VectorWidth) (k : Nat) : Memory.wf (unspecifiedBuffer W k) :=
  foldl_wf _ (fun _ _ h => setLane_wf h _ _ _) _ Memory.zeros_wf

end Sys2Proof.Machine
end

