-- ==== Sys2Proof/Tests/Slice0.lean ====
section
/-! SUPPORT. Tests: expected values are those of spec/95_test_vectors.md, 30_encoding.md, 20_memory.md
and 45_external_primitives.md, never the model's own answers. Then a witness for the hypotheses of each
obligation. -/

namespace Sys2Proof.Tests

open Sys2Proof.Machine

/-! ## Small states -/

/-- After power-on, at a known width. -/
def base (W : VectorWidth) : State := { State.reset with width := W }

/-- An instance in Absorbing mode. -/
def absorbing (W : VectorWidth) (rate apos : BitVec 8) : State :=
  { base W with valid := true, rate := rate, apos := apos }

/-- An instance in Squeezing mode. -/
def squeezing (W : VectorWidth) (rate : BitVec 8) (cursor : BitVec 11) : State :=
  { base W with valid := true, rate := rate, mode := .squeezing, cursor := cursor }

/-- After `INIT128`, `UPDATE` of 16 bytes 01, at width 4 (95 program P1). -/
def golden : State :=
  { absorbing .w4 168#8 16#8 with S := 0x01010101010101010101010101010101#1600 }

/-- The host presents one transaction. -/
def presents (s : State) (word : BitVec 32) (payload : List Byte) : State :=
  { s with inbox := [.command ⟨word, payload⟩] }

/-- What a step leaves, if it is a next state. -/
def next? (o : Host.Outcome State Fault Refusal) : Option State :=
  match o with
  | .next s => some s
  | .fault _ => none
  | .refused _ => none

/-! ## Well-formedness: an ill-formed term for each check -/

theorem test_update_too_long_refused :
    (Instr.update (List.replicate (2 ^ 28) 0#8)).wellFormed = false := by
  simp only [Instr.wellFormed, List.length_replicate, decide_eq_false_iff_not, not_lt, le_refl]

theorem test_preq_base_not_multiple_refused : (Preq.mk .w4 2).wellFormed = false := by decide

theorem test_preq_base_too_high_refused : (Preq.mk .w8 8).wellFormed = false := by decide

theorem test_payload_too_short_not_presentable :
    (Transaction.mk 0x30000002#32 [0#8]).presentable = false := by decide

theorem test_payload_on_init_not_presentable :
    (Transaction.mk 0x10000000#32 [0#8]).presentable = false := by decide

/-! ## Decoding: words written out from 30_encoding.md R83 (OP in bits 31:28, ARG in bits 27:0) -/

theorem test_decode_init128 :
    decode ⟨0b00010000000000000000000000000000#32, []⟩ = .ok .init128 := by decide

theorem test_decode_init256 :
    decode ⟨0b00100000000000000000000000000000#32, []⟩ = .ok .init256 := by decide

theorem test_decode_update_abc :
    decode ⟨0b00110000000000000000000000000011#32, [0x61#8, 0x62#8, 0x63#8]⟩ =
      .ok (.update [0x61#8, 0x62#8, 0x63#8]) := by decide

theorem test_decode_squeeze_4000000 :
    decode ⟨0b01000000001111010000100100000000#32, []⟩ = .ok (.squeeze 4000000#28) := by decide

theorem test_decode_zero_word_illegal : decode ⟨0#32, []⟩ = .error .invalidCommand := by decide

theorem test_decode_reserved_op_illegal :
    decode ⟨0x70000000#32, []⟩ = .error .invalidCommand ∧
      decode ⟨0xF0000000#32, []⟩ = .error .invalidCommand := by decide

theorem test_decode_init_with_arg_illegal :
    decode ⟨0x10000001#32, []⟩ = .error .invalidCommand ∧
      decode ⟨0x2FFFFFFF#32, []⟩ = .error .invalidCommand := by decide

theorem test_decode_short_payload_malformed :
    decode ⟨0x30000003#32, [0x61#8]⟩ = .error .malformedPayload := by decide

theorem test_micro_operations_have_no_word :
    encode .finalize = none ∧ encode .expand = none ∧ encode .permall = none := by decide

theorem test_encode_words :
    encode (.squeeze 64#28) = some ⟨0x40000040#32, []⟩ ∧
      encode (.update [0x00#8]) = some ⟨0x30000001#32, [0x00#8]⟩ := by decide

theorem test_request_descriptors :
    (requests .w8).map encodePreq = [0x80#8] ∧ (requests .w4).map encodePreq = [0x40#8, 0x44#8] ∧
      decodePreq 0x44#8 = some ⟨.w4, 4⟩ ∧ decodePreq 0x18#8 = none := by decide

theorem test_table_word_decodes :
    decodeTableWord 32 0x20000000 = some .init256 ∧
      decodeTableWord 40 0x6130000001 = some (.update [0x61#8]) := by decide

/-! ## Each instruction, and the step -/

/-- 95 section 2.2: after power-on, `INIT128`. -/
theorem test_init128 :
    (next? (step (presents (base .w8) 0x10000000#32 []))).map
        (fun t => (t.valid, t.rate, t.outbox)) = some (true, 168#8, [⟨.ok, []⟩]) := by decide

/-- 95 section 2.8: an `INIT` word with `ARG ≠ 0` does not re-initialise. -/
theorem test_init128_with_arg :
    (next? (step (presents (squeezing .w8 136#8 64#11) 0x10000001#32 []))).map
        (fun t => (t.rate, t.cursor, t.outbox)) = some (136#8, 64#11, [⟨.invalidCommand, []⟩]) := by
  decide

/-- 95 section 2.8: `INIT` in Squeezing mode gives a fresh instance. -/
theorem test_init256_while_squeezing :
    (next? (exec .init256 (squeezing .w8 168#8 1344#11))).map
        (fun t => (t.mode, t.rate, t.cursor)) = some (.absorbing, 136#8, 0#11) := by decide

/-- 95 section 2.2: `UPDATE 01 01 01` after `INIT128`. -/
theorem test_update_three_bytes :
    (next? (exec (.update [0x01#8, 0x01#8, 0x01#8]) (absorbing .w8 168#8 0#8))).map
        (fun t => (t.S, t.apos, t.scalarPerms)) = some (0x010101#1600, 3#8, 0) := by decide +kernel

/-- 10_state.md R24: while absorbing "nothing reads" `cursor`. -/
theorem test_update_ignores_cursor :
    (next? (exec (.update [0x61#8]) { absorbing .w8 168#8 0#8 with cursor := 2047#11 })).map
        (fun t => (t.apos, t.cursor, t.outbox)) = some (1#8, 2047#11, [⟨.ok, []⟩]) := by
  decide +kernel

/-- 95 section 2.2: the byte that fills the block of a zero state permutes it; the first word is
R217's. -/
theorem test_update_fills_block :
    (next? (exec (.update [0x00#8]) (absorbing .w8 168#8 167#8))).map
        (fun t => (t.S.word 0, t.apos, t.scalarPerms)) =
      some (0xF1258F7940E1DDE7#64, 0#8, 1) := by decide +kernel

theorem test_finalize : next? (exec .finalize (absorbing .w1 136#8 3#8)) =
    some (absorbing .w1 136#8 3#8) := rfl

/-- 60_exceptions.md R235. -/
theorem test_expand_again :
    (next? (exec .expand (squeezing .w4 168#8 704#11))).map (fun t => (t.cursor, t.outbox)) =
      some (704#11, [⟨.invalidState, []⟩]) := by decide

/-- 95 program P4: the trace of a block overflow at width 4 is 40 44 40 44. -/
theorem test_expand_block_overflow_trace :
    (next? (exec .expand (absorbing .w4 136#8 135#8))).map (fun t => (t.trace, t.cursor, t.mode)) =
      some ([0x40#8, 0x44#8, 0x40#8, 0x44#8], 0#11, .squeezing) := by decide

/-- 95 section 2.5: at width 1 the descriptors 10 to 17, in order. -/
theorem test_permall_trace :
    (next? (exec .permall (base .w1))).map (fun t => t.trace) =
      some [0x10#8, 0x11#8, 0x12#8, 0x13#8, 0x14#8, 0x15#8, 0x16#8, 0x17#8] := by decide

/-- 42_permutation_scheduler.md R144: word 2 of state 1 of the region of lanes 4 to 7 is the
region's word 4·2 + 1. -/
theorem test_region_word :
    (regionState ⟨.w4, 4⟩ [(875, 0xAB#8)] 1).byte 19 = 0xAB#8 := by decide +kernel

/-- 95 section 2.8: before `INIT`, the state error comes first. -/
theorem test_squeeze_63_before_init :
    (next? (step (presents (base .w8) 0x4000003F#32 []))).map (fun t => t.outbox) =
      some [⟨.invalidState, []⟩] := by decide

/-- 95 section 2.6: `SQUEEZE 63` on an Absorbing instance, and `SQUEEZE 0` at the end of a
super-block. -/
theorem test_squeeze_lengths :
    (next? (exec (.squeeze 63#28) (absorbing .w8 136#8 0#8))).map
        (fun t => (t.mode, t.outbox)) = some (.absorbing, [⟨.invalidLength, []⟩]) ∧
      (next? (exec (.squeeze 0#28) (squeezing .w8 168#8 1344#11))).map
        (fun t => (t.cursor, t.trace)) = some (1344#11, []) := by decide

/-- 10_state.md R29: `apos` is read by `UPDATE` and `EXPAND`; `SQUEEZE` in Squeezing mode delivers
whatever it holds. -/
theorem test_squeeze_ignores_apos :
    (next? (exec (.squeeze 64#28) { squeezing .w8 168#8 0#11 with apos := 255#8 })).map
        (fun t => (t.apos, t.cursor, t.outbox.map Response.status)) =
      some (255#8, 64#11, [.ok]) := by decide +kernel

/-- 95 section 1.1, the golden vector at level 128: after 16 bytes 01, `EXPAND` at width 4 leaves
lane 7 beginning with 7c 3f 69 70. -/
theorem test_golden_vector_lane_7 :
    (List.range 4).map (PState.byte (lane .w4 (expandedBuffer golden) 7)) =
      [0x7c#8, 0x3f#8, 0x69#8, 0x70#8] :=
  (congrArg (fun v => (List.range 4).map (PState.byte v))
    (lane_expandedBuffer golden (by decide) (by decide) (by decide))).trans (by decide +kernel)

/-- 20_memory.md R57 and 95 section 2.7. -/
theorem test_serializer_addresses :
    [0, 7, 8, 32, 63, 64, 72, 100, 1087, 1343].map (canonicalAddr .w8) =
        [0, 7, 8, 32, 63, 64, 72, 100, 1087, 1343] ∧
      [0, 7, 8, 32, 63, 64, 72, 100, 1087, 1343].map (canonicalAddr .w4) =
        [0, 7, 8, 800, 831, 32, 40, 836, 1343, 1471] ∧
      [0, 7, 8, 32, 63, 64, 72, 100, 1087, 1343].map (canonicalAddr .w1) =
        [0, 7, 200, 800, 1407, 8, 208, 812, 1535, 1567] := by decide

/-- A step waits when nothing is presented; a power-on reset ends the instance (70 R260). -/
theorem test_step_waits_and_resets :
    next? (step (base .w8)) = some (base .w8) ∧
      (next? (step { squeezing .w8 168#8 64#11 with inbox := [.powerOn] })).map
        (fun t => (t.valid, t.mode, t.cursor)) = some (false, .absorbing, 0#11) := ⟨rfl, rfl⟩

theorem test_malformed_payload_refused :
    step (presents (base .w8) 0x30000002#32 [0#8]) = .refused .malformedTransaction := rfl

theorem test_with_fetch_word :
    (next? (step (State.reset.withFetchWord 32 0x10000000))).map (fun t => t.outbox) =
      some [⟨.ok, []⟩] := by decide

/-! ## The memory's canonical form -/

theorem test_write_of_unlisted_value_removes_cell :
    Memory.write [(3, 0x01#8), (5, 0x02#8)] 3 [0x00#8] = [(5, 0x02#8)] ∧
      Memory.write [(5, 0x02#8)] 4 [0x07#8, 0x08#8] = [(4, 0x07#8), (5, 0x08#8)] := by decide

/-- No read of an address twice listed: such a list is not in the canonical form. -/
theorem test_unsorted_memory_not_wf : ¬ Memory.wf [(5, 0x02#8), (3, 0x01#8)] := by decide

/-! ## Primitives -/

/-- 45_external_primitives.md R217, all 25 words. -/
theorem test_keccak_check_value :
    (List.range 25).map (keccakP 0#1600).word =
      [0xF1258F7940E1DDE7#64, 0x84D5CCF933C0478A#64, 0xD598261EA65AA9EE#64, 0xBD1547306F80494D#64,
       0x8B284E056253D057#64, 0xFF97A42D7F8E6FD4#64, 0x90FEE5A0A44647C4#64, 0x8C5BDA0CD6192E76#64] ++
      [0xAD30A6F71B19059C#64, 0x30935AB7D08FFC64#64, 0xEB5AA93F2317D635#64, 0xA9A6E6260D712103#64,
       0x81A57C16DBCF555F#64, 0x43B831CD0347C826#64, 0x01F22F1A11A5569F#64, 0x05E5635A21D9AE61#64] ++
      [0x64BEFEF28CC970F2#64, 0x613670957BC46611#64, 0xB87C5A554FD00ECB#64, 0x8C3EE88A1CCF32C8#64,
       0x940C7922AE3A2614#64, 0x1841F924A2C509E4#64, 0x16F53526E70465C2#64, 0x75F644E97F30A13B#64,
       0xEAF1FF7B5CECA249#64] := by decide +kernel

/-- 45_external_primitives.md R218: the first four bytes of `SHAKE(128, empty)` and
`SHAKE(256, empty)`. -/
theorem test_shake_check_values :
    (List.range 4).map (shakeByte .l128 []) = [0x7f#8, 0x9c#8, 0x2b#8, 0xa4#8] ∧
      (List.range 4).map (shakeByte .l256 []) = [0x46#8, 0xb9#8, 0xdd#8, 0x2b#8] := by
  decide +kernel

/-- 95 section 2.4, the block overflow at level 256: seed of 135 bytes, group 7. -/
theorem test_stream_byte_block_overflow :
    streamByte .l256 ((List.range 135).map (BitVec.ofNat 8)) 56 = 0x95#8 := by decide +kernel

/-! ## Witnesses: concrete states and operands that meet the hypotheses of each obligation -/


/-- Absorbing, at the start of a block. -/
abbrev atStart : State := absorbing .w8 168#8 0#8

/-- Absorbing, at the last byte of a block. -/
abbrev atLast : State := absorbing .w4 136#8 135#8

/-- Squeezing, at the start of a super-block. -/
abbrev sqStart : State := squeezing .w8 168#8 0#11

/-- Squeezing, one row before the end of a super-block. -/
abbrev sqRow : State := squeezing .w4 168#8 1280#11

/-- Squeezing, at the end of a super-block. -/
abbrev sqEnd : State := squeezing .w1 168#8 1344#11

/-- `rate` outside its range. -/
abbrev badRate : State := absorbing .w8 0#8 0#8

/-- `apos` outside its range. -/
abbrev badApos : State := absorbing .w8 136#8 136#8

/-- `cursor` outside its range. -/
abbrev badCursor : State := squeezing .w8 136#8 1344#11

theorem witness_DecodeEncodeAgree :
    (Instr.update [0x61#8]).wellFormed = true ∧ (Instr.update [0x61#8]).hostIssuable = true ∧
      (Instr.squeeze 268435455#28).wellFormed = true ∧
      (Instr.squeeze 268435455#28).hostIssuable = true := by
  decide

theorem witness_EncodeDecodeAgree :
    decode ⟨0x4FFFFFFF#32, []⟩ = .ok (.squeeze 268435455#28) := by decide

/-- Illegal by `OP` at its lowest reserved value and by `ARG`; legal at the highest `OP` and `ARG`. -/
theorem witness_EveryWordIsCommandOrIllegal :
    (Transaction.mk 0x50000000#32 []).presentable = true ∧ (0x50000000#32).toNat / 2 ^ 28 = 5 ∧
      (Transaction.mk 0x10000001#32 []).presentable = true ∧ (0x10000001#32).toNat % 2 ^ 28 ≠ 0 ∧
      (Transaction.mk 0x4FFFFFFF#32 []).presentable = true ∧ (0x4FFFFFFF#32).toNat / 2 ^ 28 = 4 ∧
      (presents (base .w8) 0x50000000#32 []).inbox = .command ⟨0x50000000#32, []⟩ :: [] := by decide

theorem witness_RequestDescriptorsRoundTrip :
    (Preq.mk .w4 4).wellFormed = true ∧ (Preq.mk .w1 7).wellFormed = true ∧
      (Preq.mk .w8 0).wellFormed = true := by decide

theorem witness_StepRunsDecodedInstruction :
    (presents (base .w8) 0x20000000#32 []).inbox = .command ⟨0x20000000#32, []⟩ :: [] ∧
      decode ⟨0x20000000#32, []⟩ = .ok .init256 := by decide

theorem witness_StepRunsEncodedInstruction :
    (Instr.squeeze 64#28).wellFormed = true ∧ encode (.squeeze 64#28) = some ⟨0x40000040#32, []⟩ ∧
      (presents (base .w8) 0x40000040#32 []).inbox = .command ⟨0x40000040#32, []⟩ :: [] := by decide

theorem witness_StepWaitsAndRefusesMalformed :
    (base .w8).inbox = [] ∧ (Transaction.mk 0x30000001#32 []).presentable = false ∧
      (presents (base .w8) 0x30000001#32 []).inbox = .command ⟨0x30000001#32, []⟩ :: [] := by decide

theorem witness_PowerOnResetEndsInstance :
    (State.inbox { squeezing .w8 168#8 64#11 with inbox := [.powerOn] }) = .powerOn :: [] := by
  decide

theorem witness_Init128CreatesInstance :
    (1#28 ≠ 0#28 ∧
      (presents (base .w8) (1#4 ++ 1#28) []).inbox = .command ⟨1#4 ++ 1#28, []⟩ :: []) ∧
      (268435455#28 ≠ 0#28 ∧ (presents (base .w8) (1#4 ++ 268435455#28) []).inbox =
        .command ⟨1#4 ++ 268435455#28, []⟩ :: []) := by decide

theorem witness_Init256CreatesInstance :
    (1#28 ≠ 0#28 ∧
      (presents (base .w8) (2#4 ++ 1#28) []).inbox = .command ⟨2#4 ++ 1#28, []⟩ :: []) ∧
      (268435455#28 ≠ 0#28 ∧ (presents (base .w8) (2#4 ++ 268435455#28) []).inbox =
        .command ⟨2#4 ++ 268435455#28, []⟩ :: []) := by decide

/-- The position at the start and at the last byte of a block. -/
theorem witness_UpdateAbsorbsPayload :
    (atStart.valid = true ∧ atStart.mode = .absorbing ∧ registersInRange atStart = true) ∧
    (atLast.valid = true ∧ atLast.mode = .absorbing ∧ registersInRange atLast = true) := by decide

theorem witness_UpdateCountsBlocks :
    (atStart.valid = true ∧ atStart.mode = .absorbing ∧ registersInRange atStart = true) ∧
    (atLast.valid = true ∧ atLast.mode = .absorbing ∧ registersInRange atLast = true) := by decide

theorem witness_UpdateSplits :
    (atLast.valid = true ∧ atLast.mode = .absorbing) ∧
      (badRate.valid = true ∧ badRate.mode = .absorbing) := by decide

theorem witness_EmptyUpdateChangesNothing :
    (atLast.valid = true ∧ atLast.mode = .absorbing) ∧
    (base .w8).valid = false ∧ sqStart.mode = .squeezing := by decide

theorem witness_UpdateRejectedOutsideAbsorbing :
    (base .w8).valid = false ∧ sqStart.mode = .squeezing := by decide

/-- No block overflow, and a block overflow. -/
theorem witness_ExpandPreparesLanes :
    (atStart.valid = true ∧ atStart.mode = .absorbing ∧ registersInRange atStart = true) ∧
    (atLast.valid = true ∧ atLast.mode = .absorbing ∧ registersInRange atLast = true) := by decide

theorem witness_ExpandEstablishesShakeLanes :
    atStart.mode = .absorbing ∧ registersInRange atStart = true ∧
      atStart.rate.toNat = Level.rate .l128 ∧
      spongeAbsorb (Level.rate .l128) [] = (atStart.S, atStart.apos.toNat) := ⟨rfl, rfl, rfl, rfl⟩

theorem witness_ExpandGuardsAgainstSecondRun :
    sqEnd.mode = .squeezing := by decide

/-- One batch at `rate − 2`, two at `rate − 1`. -/
theorem witness_ExpandCountsBatches :
    ((absorbing .w1 168#8 166#8).valid = true ∧ (absorbing .w1 168#8 166#8).mode = .absorbing ∧
      registersInRange (absorbing .w1 168#8 166#8) = true) ∧
    ((absorbing .w1 168#8 167#8).valid = true ∧ (absorbing .w1 168#8 167#8).mode = .absorbing ∧
      registersInRange (absorbing .w1 168#8 167#8) = true) := by decide

theorem witness_LayoutIsBijection :
    199 < 200 ∧ 7 < 8 ∧ 24 < 25 ∧ wordIndex .w4 7 24 = 199 ∧ wordIndex .w1 7 24 = 199 ∧
      wordIndex .w8 7 24 = 199 := by decide

theorem witness_PermallIssuesRequests :
    (Preq.mk .w4 4) ∈ requests .w4 ∧ (Preq.mk .w1 7) ∈ requests .w1 ∧ 7 < 8 := by decide

theorem witness_RequestTouchesItsRegion :
    (Preq.mk .w4 4).wellFormed = true ∧ 799 < 200 * (Preq.mk .w4 4).base ∧
      (Preq.mk .w1 0).wellFormed = true ∧
      200 * (Preq.mk .w1 0).base + 200 * VectorWidth.w1.lanes ≤ 200 ∧
      3 < VectorWidth.w4.lanes ∧ 199 < 200 := by decide

theorem witness_SqueezeRejectedBeforeInit :
    (base .w8).valid = false := by decide

theorem witness_SqueezeRejectsMisalignedLength :
    atStart.valid = true ∧ sqEnd.valid = true ∧ (63#28).toNat % 64 ≠ 0 ∧
      (268435455#28).toNat % 64 ≠ 0 := by decide

theorem witness_SqueezeDeliversStream :
    (sqStart.valid = true ∧ sqStart.mode = .squeezing ∧ registersInRange sqStart = true) ∧
    (sqEnd.valid = true ∧ sqEnd.mode = .squeezing ∧ registersInRange sqEnd = true) ∧
      (64#28).toNat % 64 = 0 ∧ 63 < (64#28).toNat ∧ (268435392#28).toNat % 64 = 0 := by decide

theorem witness_FirstSqueezeExpands :
    (atLast.valid = true ∧ atLast.mode = .absorbing ∧ registersInRange atLast = true) ∧
      (0#28).toNat % 64 = 0 ∧ (64#28).toNat % 64 = 0 := by
  decide

theorem witness_SqueezeCountsRepermutations :
    (atLast.valid = true ∧ atLast.mode = .absorbing ∧ registersInRange atLast = true) ∧
    (sqEnd.valid = true ∧ sqEnd.mode = .squeezing ∧ registersInRange sqEnd = true) ∧
      (0#28).toNat % 64 = 0 ∧ (64#28).toNat % 64 = 0 := by
  decide

theorem witness_RepermutationIsLazy :
    (sqRow.valid = true ∧ sqRow.mode = .squeezing ∧ registersInRange sqRow = true ∧
      (64#28).toNat % 64 = 0 ∧ 0 < (64#28).toNat ∧
      sqRow.cursor.toNat + (64#28).toNat = 8 * sqRow.rate.toNat) ∧
    (sqEnd.valid = true ∧ sqEnd.mode = .squeezing ∧ registersInRange sqEnd = true ∧
      (1344#28).toNat % 64 = 0 ∧ 0 < (1344#28).toNat ∧
      (1344#28).toNat ≤ 8 * sqEnd.rate.toNat ∧ sqEnd.cursor.toNat = 8 * sqEnd.rate.toNat) := by
  decide

theorem witness_SqueezeZeroExpandsOnly :
    (sqEnd.valid = true ∧ sqEnd.mode = .squeezing) ∧
      (atLast.valid = true ∧ atLast.mode = .absorbing) := by decide

theorem witness_SerializerFollowsCanonicalOrder :
    (sqRow.valid = true ∧ sqRow.mode = .squeezing ∧ registersInRange sqRow = true) ∧
      (64#28).toNat % 64 = 0 ∧
      sqRow.cursor.toNat + (64#28).toNat ≤ 8 * sqRow.rate.toNat ∧ 63 < (64#28).toNat := by
  decide

theorem witness_Width8ReadsDirectly :
    1343 < 1344 ∧ canonicalAddr .w4 1343 = canonicalAddr .w4 1343 := by decide

/-- An instance like `squeezing .w8 168 1280` but for a byte of lane 0's capacity part. -/
def withCapacityByte : State := { squeezing .w8 168#8 1280#11 with buffer := [(1543, 0xFF#8)] }

theorem witness_CapacityNeverDelivered :
    (withCapacityByte.valid = true ∧ withCapacityByte.mode = .squeezing ∧
      registersInRange withCapacityByte = true) ∧
    (sqRow.valid = true ∧ sqRow.mode = .squeezing) ∧
      (withCapacityByte.rate = 168#8 ∧ (64#28).toNat % 64 = 0) ∧
      withCapacityByte.cursor.toNat + (64#28).toNat ≤ 8 * withCapacityByte.rate.toNat ∧
      withCapacityByte.rate = sqRow.rate ∧ withCapacityByte.cursor = sqRow.cursor ∧
      (∀ j < 8, ∀ b < withCapacityByte.rate.toNat, (lane .w8 withCapacityByte.buffer j).byte b =
        (lane .w4 sqRow.buffer j).byte b) ∧
      (lane .w8 withCapacityByte.buffer 0).byte 199 ≠
        (lane .w4 sqRow.buffer 0).byte 199 := by
  refine ⟨by decide, by decide, by decide, by decide, rfl, rfl, ?_, by decide +kernel⟩
  have h : ∀ j < 8, ∀ b < 168, laneByte .w8 withCapacityByte.buffer j b = laneByte .w4 [] j b := by
    decide +kernel
  intro j hj b hb
  have hb : b < 168 := hb
  rw [lane_byte _ _ _ (by omega), lane_byte _ _ _ (by omega)]
  exact h j hj b hb

theorem witness_SqueezeComposes :
    (atLast.valid = true ∧ registersInRange atLast = true) ∧
      (sqEnd.valid = true ∧ registersInRange sqEnd = true) ∧ [0#28, 64#28, 128#28] ≠ [] ∧
      (∀ n ∈ [0#28, 64#28, 128#28], n.toNat % 64 = 0) ∧
      ([0#28, 64#28, 128#28].map BitVec.toNat).sum = (192#28).toNat :=
  ⟨by decide, by decide, by simp, by simp, by decide⟩

theorem witness_UpdateAfterSqueezeRejected :
    (atStart.valid = true ∧ atStart.mode = .absorbing) ∧
      (sqEnd.valid = true ∧ sqEnd.mode = .squeezing) ∧
      (0#28).toNat % 64 = 0 ∧ (100#28).toNat % 64 ≠ 0 := by decide

theorem inv_absorbing : Inv (presents atLast 0x40000040#32 []) :=
  ⟨by decide, by decide, by decide, by decide, by decide, by decide, by decide⟩

theorem inv_squeezing : Inv (presents sqEnd 0x10000000#32 []) :=
  ⟨by decide, by decide, by decide, by decide, by decide, by decide, by decide⟩

theorem witness_StepKeepsInvariants :
    Inv (presents sqEnd 0x10000000#32 []) ∧
      ∃ t, step (presents sqEnd 0x10000000#32 []) = .next t ∧
        t.mode = .absorbing := ⟨inv_squeezing, _, rfl, rfl⟩

theorem witness_EngineNeverStops :
    Inv (presents atLast 0x40000040#32 []) ∧
      inboxPresentable (presents atLast 0x40000040#32 []) := by
  refine ⟨inv_absorbing, fun t ht => ?_⟩
  obtain rfl : t = ⟨0x40000040#32, []⟩ := by simpa [presents] using ht
  decide

theorem witness_ErrorsChangeNothing :
    ∃ t r, step (presents sqEnd 0x30000000#32 []) = .next t ∧
      t.outbox = [] ++ [r] ∧ r.status ≠ .ok := ⟨_, ⟨.invalidState, []⟩, rfl, rfl, by decide⟩

theorem witness_OneResponsePerCommand :
    (presents (squeezing .w1 168#8 0#11) 0x40000040#32 []).inbox = .command ⟨0x40000040#32, []⟩ :: [] ∧
      (next? (step (presents (squeezing .w1 168#8 0#11) 0x40000040#32 []))).map
        (fun t => t.outbox.map fun r => (r.status, r.payload.length)) = some [(.ok, 64)] ∧
      (next? (step (presents (squeezing .w1 168#8 0#11) 0x10000000#32 []))).isSome = true := by
  decide +kernel

theorem witness_OnlyInitLeavesSqueezing :
    (∃ t, exec .init128 sqEnd = .next t ∧ t.mode = .absorbing) ∧
      ∃ t, exec .init256 (base .w8) = .next t ∧ t.valid = true := ⟨⟨_, rfl, rfl⟩, _, rfl, rfl⟩

theorem witness_WritersOfEachElement :
    (∃ t, exec .init256 sqEnd = .next t ∧
        t.rate ≠ sqEnd.rate ∧ t.mode ≠ .squeezing) ∧
      (∃ t, exec .permall (base .w8) = .next t ∧ t.trace ≠ (base .w8).trace) ∧
      ∃ t, exec (.update [0x61#8]) atStart = .next t ∧
        t.apos ≠ atStart.apos :=
        ⟨⟨_, rfl, by decide, by decide⟩, ⟨_, rfl, by decide⟩, _, rfl, by decide +kernel⟩

theorem witness_NoOutputWhileAbsorbing :
    (next? (exec (.squeeze 64#28) sqStart)).map (fun t => t.outbox) =
      some ([] ++ [⟨.ok, List.replicate 64 0x00#8⟩]) ∧ List.replicate 64 0x00#8 ≠ [] := by
  decide +kernel

theorem witness_CrossWidthEquivalence :
    snapshot (squeezing .w8 168#8 64#11) = snapshot (squeezing .w1 168#8 64#11) ∧
      ∃ t, exec .permall (squeezing .w8 168#8 64#11) = .next t := by
  refine ⟨?_, _, rfl⟩
  have h : ∀ W : VectorWidth, lane W [] = fun _ => 0#1600 := fun W => funext (lane_zeros W)
  simp only [snapshot, squeezing, base, State.reset, h]

theorem witness_InitHistoryAndWidthInvisible :
    ∀ i ∈ [Instr.update [0x61#8], .squeeze 64#28, .squeeze 63#28, .init256], i.hostIssuable = true := by
  decide

theorem witness_RefinesIdealGenerator :
    Simulates atStart (some ⟨.l128, [], none⟩) ∧ Simulates (base .w8) none ∧
      Instr.hostIssuable (.squeeze 64#28) = true := ⟨⟨rfl, rfl, rfl, rfl, rfl⟩, rfl, rfl⟩

theorem witness_ConformsToSequentialReference :
    ∀ n ∈ [0#28, 64#28, 1344#28], n.toNat % 64 = 0 := by simp

theorem witness_RunCountsPermutations :
    (∀ n ∈ [0#28, 64#28, 1344#28], n.toNat % 64 = 0) ∧
      ∀ n ∈ ([] : List (BitVec 28)), n.toNat % 64 = 0 := by simp

theorem witness_NoInstructionStops :
    (presents badRate 0x30000001#32 [0x61#8]).inbox = .command ⟨0x30000001#32, [0x61#8]⟩ :: [] ∧
      (Transaction.mk 0x30000001#32 [0x61#8]).presentable = true := by decide

/-- Each register outside its legal values. -/
theorem witness_CommandsCompleteOnAnyRegisters :
    (badRate.valid = true ∧ badRate.mode = .absorbing ∧ registersInRange badRate = false) ∧
      (badApos.valid = true ∧ badApos.mode = .absorbing ∧ registersInRange badApos = false) ∧
      (badCursor.valid = true ∧ registersInRange badCursor = false) ∧
      (64#28).toNat % 64 = 0 := by decide

/-- `apos` at its boundary 199 with `rate` 200 and 100, and at 198; `cursor` at the end of the lanes'
200 bytes with `rate` 255. -/
theorem witness_RulesFollowedBeyondLegalRegisters :
    ((absorbing .w8 100#8 199#8).valid = true ∧ (absorbing .w8 100#8 199#8).mode = .absorbing ∧
      (absorbing .w8 100#8 199#8).apos.toNat < 200) ∧
    ((absorbing .w8 200#8 199#8).mode = .absorbing ∧ 0 < (absorbing .w8 200#8 199#8).rate.toNat ∧
      (absorbing .w8 200#8 199#8).rate.toNat ≤ 200 ∧ (absorbing .w8 200#8 199#8).apos.toNat = 199) ∧
    ((absorbing .w8 1#8 198#8).mode = .absorbing ∧ 0 < (absorbing .w8 1#8 198#8).rate.toNat ∧
      (absorbing .w8 1#8 198#8).rate.toNat ≤ 200 ∧ (absorbing .w8 1#8 198#8).apos.toNat = 198) ∧
    (squeezing .w1 255#8 1536#11).valid = true ∧ (squeezing .w1 255#8 1536#11).mode = .squeezing ∧
      (64#28).toNat % 64 = 0 ∧ 63 < (64#28).toNat ∧
      (squeezing .w1 255#8 1536#11).cursor.toNat + (64#28).toNat ≤
        8 * (squeezing .w1 255#8 1536#11).rate.toNat ∧
      (squeezing .w1 255#8 1536#11).cursor.toNat + (64#28).toNat ≤ 1600 := by decide

/-- Each form the clauses name: a mode, an instruction other than `SQUEEZE`, a failing command. -/
theorem witness_ReadersOfCursorAposS :
    (atLast.valid = true ∧ atLast.mode = .absorbing) ∧ sqRow.mode = .squeezing ∧
      Instr.expand ≠ .squeeze 64#28 ∧ (base .w8).valid = false ∧
      (64#28).toNat % 64 = 0 ∧ (63#28).toNat % 64 ≠ 0 := by decide

end Sys2Proof.Tests
end

/-! SUPPORT. The proofs of the statements on Lane Expansion (41_lane_expansion.md). -/

namespace Sys2Proof

open Sys2Proof.Machine

/-- The bytes of the first output block are the bytes of the state that holds it (R215). -/
theorem shakeByte_of_lt_rate (l : Level) (M : List Byte) {b : Nat} (hb : b < l.rate) :
    shakeByte l M b = (spongeState l.rate M 0).byte b := by
  rw [shakeByte, Nat.div_eq_of_lt hb, Nat.mod_eq_of_lt hb]

/-- The sponge after the message of lane `j` has absorbed one byte more than after the seed (R129). -/
theorem spongeAbsorb_laneMessage (rate : Nat) (seed : List Byte) (j : Nat) :
    spongeAbsorb rate (laneMessage seed j) =
      spongeAbsorbByte rate (spongeAbsorb rate seed) (BitVec.ofNat 8 j) := by
  rw [laneMessage, spongeAbsorb, List.foldl_concat, spongeAbsorb]

/-- From the absorption state of a seed, `EXPAND` leaves in lane `j` the state that holds the first
output block of that lane's message (R129). -/
theorem lane_expandLanes_of_seed {s : State} {seed : List Byte}
    (hp : s.apos.toNat < s.rate.toNat) (hr : s.rate.toNat ≤ 200)
    (hS : spongeAbsorb s.rate.toNat seed = (s.S, s.apos.toNat)) {j : Nat} (hj : j < 8) :
    lane (expandLanes s).width (expandLanes s).buffer j =
      spongeState s.rate.toNat (laneMessage seed j) 0 := by
  rw [spongeState, spongeAbsorb_laneMessage, hS, expandLanes_eq, lane_expandedBuffer s hp hr hj]

/-- Settles O23: `EXPAND` absorbs the lane's index after the seed, then pads and permutes, which is
the sponge on the lane's message. -/
theorem expandEstablishesShakeLanes : Obligations.ExpandEstablishesShakeLanes := by
  intro s l seed hm hreg hrate hS
  obtain ⟨hr, hp⟩ := (registersInRange_absorbing hm).1 hreg
  refine ⟨expandLanes s, exec_expand_of_absorbing hm, fun i hi => ?_⟩
  have hlane : lane (expandLanes s).width (expandLanes s).buffer i =
      spongeState l.rate (laneMessage seed i) 0 := by
    rw [← hrate] at hS ⊢
    exact lane_expandLanes_of_seed hp hr hS hi
  exact ⟨hlane, fun b hb => by rw [hlane, shakeByte_of_lt_rate l _ hb]⟩

end Sys2Proof

/-! SUPPORT. The proofs of the statements on the permutation scheduler
(42_permutation_scheduler.md). -/

namespace Sys2Proof

open Sys2Proof.Machine

/-- `PERMALL` is `PermuteAllLanes()` and never fails (R141). -/
theorem exec_permall (s : State) : exec .permall s = .next (permuteAllLanes s) := rfl

/-- `PermuteAllLanes()` replaces every lane by its permutation, whatever the width (R142). -/
theorem lane_permuteAllLanes (s : State) {j : Nat} (hj : j < 8) :
    lane (permuteAllLanes s).width (permuteAllLanes s).buffer j =
      keccakP (lane s.width s.buffer j) := by
  rw [permuteAllLanes_eq, lane_permutedBuffer s.width s.buffer hj]

/-- `PermuteAllLanes()` writes the buffer and the trace, and nothing else (R141). -/
theorem permuteAllLanes_frame (s : State) :
    permuteAllLanes s =
      { s with buffer := (permuteAllLanes s).buffer, trace := (permuteAllLanes s).trace } := by
  rw [permuteAllLanes_eq]

/-- Settles O27: `PERMALL` always completes as `PermuteAllLanes()`, which permutes each of the eight
lanes and leaves every element but the buffer and the trace as it was. -/
theorem permallPermutesEveryLane : Obligations.PermallPermutesEveryLane := fun s =>
  ⟨permuteAllLanes s, exec_permall s, fun _ hj => lane_permuteAllLanes s hj, permuteAllLanes_frame s⟩

end Sys2Proof

/-! SUPPORT. The proofs of the statements on the parallel squeeze (43_parallel_squeeze.md). -/

namespace Sys2Proof

open Sys2Proof.Machine

/-- In Squeezing mode a `SQUEEZE` that passes its checks is delivery from the state as it is (R161,
R168). -/
theorem exec_squeeze_of_squeezing {s : State} {n : BitVec 28} (hv : s.valid = true)
    (hn : n.toNat % 64 = 0) (hm : s.mode = .squeezing) :
    exec (.squeeze n) s = finish (deliver n.toNat s).1 (deliver n.toNat s).2 := by
  have hs : expandIfAbsorbing s = s := if_pos ((squeezingBegun_iff s).2 hm)
  rw [exec_squeeze_of_aligned hv hn, hs]

/-- A delivery that stays inside the current super-block does not re-permute (R164, R172). -/
theorem refillsFor_eq_zero {s : State} {n : Nat}
    (hfit : s.cursor.toNat + n ≤ 8 * s.rate.toNat) : refillsFor s n = 0 := by
  unfold refillsFor
  split
  · rfl
  · exact Nat.div_eq_of_lt (by omega)

/-- A delivery inside the current super-block is one run of the serializer: its bytes are
`SBbyte(c)` from `cursor` on, and it writes `cursor` only (R165). -/
theorem deliver_of_fits {s : State} {n : Nat} (hm : s.mode = .squeezing)
    (hreg : registersInRange s = true) (hfit : s.cursor.toNat + n ≤ 8 * s.rate.toNat) :
    deliver n s = (serialize s n, { s with cursor := BitVec.ofNat 11 (cursorAfter s n) }) := by
  obtain ⟨hr, -, -⟩ := (registersInRange_squeezing hm).1 hreg
  have hbytes : ∀ t ∈ List.range n,
      upcomingByte s (s.cursor.toNat + t) = sbByte s (s.cursor.toNat + t) := fun t ht =>
    (sbByte_upcoming s hr (by have := List.mem_range.1 ht; omega)).symm
  rw [deliver_eq_of_inRange n hm hreg, refillsFor_eq_zero hfit, List.map_congr_left hbytes,
    Function.iterate_zero_apply, batchTrace_zero, List.append_nil]
  rfl

/-- A `SQUEEZE` inside the current super-block answers with that run and writes `cursor` only (R160,
R165). -/
theorem exec_squeeze_of_fits {s : State} {n : BitVec 28} (hv : s.valid = true)
    (hn : n.toNat % 64 = 0) (hm : s.mode = .squeezing) (hreg : registersInRange s = true)
    (hfit : s.cursor.toNat + n.toNat ≤ 8 * s.rate.toNat) :
    exec (.squeeze n) s = .next { s with
      cursor := BitVec.ofNat 11 (cursorAfter s n.toNat),
      outbox := s.outbox ++ [⟨.ok, serialize s n.toNat⟩] } := by
  rw [exec_squeeze_of_squeezing hv hn hm, deliver_of_fits hm hreg hfit]
  rfl

@[simp] theorem serialize_length (s : State) (d : Nat) : (serialize s d).length = d := by
  simp [serialize]

/-- Byte `k` of a run of the serializer is the one at canonical offset `cursor + k` (R163). -/
theorem serialize_getElem? (s : State) {d k : Nat} (hk : k < d) :
    (serialize s d)[k]? = some (sbByte s (s.cursor.toNat + k)) := by
  simp [serialize, hk]

/-- The physical address of canonical offset `c` is byte `c mod 8` of the buffer word that holds
word `(c div 8) div 8` of its lane (20_memory.md R57). -/
theorem canonicalAddr_eq (W : VectorWidth) (c : Nat) :
    canonicalAddr W c = 8 * wordIndex W (c / 8 % 8) (c / 8 / 8) + c % 8 := by
  have hw : canonicalByte c / 8 = c / 8 / 8 := by unfold canonicalByte; omega
  have ht : canonicalByte c % 8 = c % 8 := by unfold canonicalByte; omega
  rw [canonicalAddr, byteAddr, hw, ht, canonicalLane]

/-- `SBbyte(c)` where the rules state it: the buffer byte at the physical address of `c` (R57). -/
theorem sbByte_eq_read (s : State) {c : Nat} (hr : s.rate.toNat ≤ 200)
    (hc : c < 8 * s.rate.toNat) : sbByte s c = s.buffer.read (canonicalAddr s.width c) :=
  if_pos ⟨hc, show canonicalByte c < 200 by unfold canonicalByte; omega⟩

/-- Settles O37: inside the current super-block a `SQUEEZE` is one run of the serializer, whose byte
at canonical offset `c` is the lane byte R166 names and the buffer byte at the address of R57. -/
theorem serializerFollowsCanonicalOrder : Obligations.SerializerFollowsCanonicalOrder := by
  intro s n hv hn hm hreg hfit
  obtain ⟨hr, -, -⟩ := (registersInRange_squeezing hm).1 hreg
  refine ⟨_, serialize s n.toNat, exec_squeeze_of_fits hv hn hm hreg hfit, rfl,
    serialize_length s _, rfl, fun k hk => ?_⟩
  have hc : s.cursor.toNat + k < 8 * s.rate.toNat := by omega
  rw [serialize_getElem? s hk]
  constructor
  · rw [sbByte_of_lt s hr hc, canonicalLane, canonicalByte]
  · rw [sbByte_eq_read s hr hc, canonicalAddr_eq]

end Sys2Proof

/-! SUPPORT. The proofs of the statements on the reference stream (44_reference_stream.md). -/

namespace Sys2Proof

open Sys2Proof.Machine

/-! ## The sponge and the output stream -/

theorem Level.rate_pos (l : Level) : 0 < l.rate := by cases l <;> decide

theorem Level.rate_le (l : Level) : l.rate ≤ 200 := by cases l <;> decide

theorem Level.rate_mod_eight (l : Level) : l.rate % 8 = 0 := by cases l <;> decide

/-- The sponge's position stays inside the block, since a full block is permuted at once (R214). -/
theorem spongeAbsorb_position_lt {rate : Nat} (h0 : 0 < rate) (M : List Byte) :
    (spongeAbsorb rate M).2 < rate := by
  refine List.foldlRecOn (motive := fun p : PState × Nat => p.2 < rate) M _ h0 fun p hp x _ => ?_
  unfold spongeAbsorbByte
  split
  · exact h0
  · show p.2 + 1 < rate
    omega

theorem spongeAbsorb_append (rate : Nat) (M N : List Byte) :
    spongeAbsorb rate (M ++ N) = N.foldl (spongeAbsorbByte rate) (spongeAbsorb rate M) :=
  List.foldl_append

/-- Each further output block is one more permutation (R215). -/
theorem spongeState_add (rate : Nat) (M : List Byte) (k i : Nat) :
    spongeState rate M (k + i) = keccakP^[i] (spongeState rate M k) := by
  induction i with
  | zero => rfl
  | succ i ih => rw [← Nat.add_assoc, spongeState, ih, Function.iterate_succ_apply']

/-- Byte `b` of block `t` of the SHAKE output (R215). -/
theorem shakeByte_in_block (l : Level) (M : List Byte) (t : Nat) {b : Nat} (hb : b < l.rate) :
    shakeByte l M (t * l.rate + b) = (spongeState l.rate M t).byte b := by
  rw [shakeByte, Nat.mul_add_mod', Nat.mod_eq_of_lt hb, Nat.add_comm,
    Nat.add_mul_div_right _ _ l.rate_pos, Nat.div_eq_of_lt hb, Nat.zero_add]

/-- The output stream by super-blocks: canonical offset `c` of super-block `m` is a byte of block `m`
of its lane (R192). -/
theorem streamByte_superBlock (l : Level) (seed : List Byte) (m : Nat) {c : Nat}
    (hc : c < 8 * l.rate) :
    streamByte l seed (8 * l.rate * m + c) =
      (spongeState l.rate (laneMessage seed (canonicalLane c)) m).byte (canonicalByte c) := by
  have hT : 0 < 8 * l.rate := by omega
  have hm : (8 * l.rate * m + c) / (8 * l.rate) = m := by
    rw [Nat.mul_add_div hT, Nat.div_eq_of_lt hc, Nat.add_zero]
  have hmod : (8 * l.rate * m + c) % (8 * l.rate) = c := by
    rw [Nat.mul_add_mod, Nat.mod_eq_of_lt hc]
  simp only [streamByte, hm, hmod]
  rw [Nat.add_assoc]
  exact shakeByte_in_block l _ m (canonicalByte_lt hc l.rate_mod_eight)

/-- Lanes that hold block `k` of their messages have before them the output stream from super-block `k`
on (43_parallel_squeeze.md R166, R192). -/
theorem upcomingByte_eq_streamByte {s : State} {l : Level} {seed : List Byte} {k : Nat}
    (hrate : s.rate.toNat = l.rate)
    (hlanes : ∀ j < 8, lane s.width s.buffer j = spongeState l.rate (laneMessage seed j) k)
    (u : Nat) : upcomingByte s u = streamByte l seed (8 * l.rate * k + u) := by
  have hT : 0 < 8 * l.rate := by have := l.rate_pos; omega
  have hsplit : 8 * l.rate * k + u =
      8 * l.rate * (k + u / (8 * l.rate)) + u % (8 * l.rate) := by
    rw [Nat.mul_add, Nat.add_assoc, Nat.div_add_mod]
  rw [hsplit, streamByte_superBlock l seed _ (Nat.mod_lt u hT), spongeState_add, upcomingByte, hrate,
    hlanes _ (canonicalLane_lt _)]

/-! ## The position in the stream (43_parallel_squeeze.md R172) -/

/-- Re-permutations and cursor together are the position. -/
theorem refillsAt_cursorAt (l : Level) (p : Nat) :
    8 * l.rate * refillsAt l p + cursorAt l p = p := by
  have := Nat.div_add_mod (p - 1) (8 * l.rate)
  unfold refillsAt cursorAt
  split
  · simp [*]
  · omega

theorem cursorAt_le (l : Level) (p : Nat) : cursorAt l p ≤ 8 * l.rate := by
  have := Nat.mod_lt (p - 1) (show 0 < 8 * l.rate by have := l.rate_pos; omega)
  unfold cursorAt
  split <;> omega

/-- The last byte of a delivery, at `cursor + n − 1`, seen from the start of the stream. -/
theorem position_add_sub_one (l : Level) (p : Nat) {n : Nat} (hn : n ≠ 0) :
    p + n - 1 = 8 * l.rate * refillsAt l p + (cursorAt l p + n - 1) := by
  have := refillsAt_cursorAt l p
  omega

/-- A delivery of `n` bytes adds the re-permutations between the two positions. -/
theorem refillsAt_add {s : State} {l : Level} {p : Nat} (hrate : s.rate.toNat = l.rate)
    (hcur : s.cursor.toNat = cursorAt l p) (n : Nat) :
    refillsAt l (p + n) = refillsAt l p + refillsFor s n := by
  have hT : 0 < 8 * l.rate := by have := l.rate_pos; omega
  unfold refillsFor
  split
  next hn => rw [hn]; rfl
  next hn =>
    rw [hrate, hcur, refillsAt, position_add_sub_one l p hn, Nat.mul_add_div hT]

/-- A delivery of `n` bytes leaves the cursor of the position `n` bytes on. -/
theorem cursorAt_add {s : State} {l : Level} {p : Nat} (hrate : s.rate.toNat = l.rate)
    (hcur : s.cursor.toNat = cursorAt l p) (n : Nat) :
    cursorAt l (p + n) = cursorAfter s n := by
  unfold cursorAfter
  split
  next hn => rw [hn, hcur]; rfl
  next hn =>
    rw [hrate, hcur, cursorAt, if_neg (by omega), position_add_sub_one l p hn, Nat.mul_add_mod]

/-! ## Each command on a state that stands for an ideal instance -/

theorem simulates_respond {s : State} {a : Option Ideal} (e : Status) (out : List Byte)
    (h : Simulates s a) : Simulates (s.respond e out) a := by
  cases a <;> exact h

/-- An instance in Squeezing mode has its registers in range. -/
theorem Simulates.inRange {s : State} {l : Level} {seed : List Byte} {p : Nat}
    (h : Simulates s (some ⟨l, seed, some p⟩)) : registersInRange s = true := by
  obtain ⟨-, hrate, -, hm, -, hcur, -⟩ := h
  dsimp only at hrate hcur
  rw [registersInRange_squeezing hm, hrate, hcur]
  exact ⟨l.rate_le, l.rate_pos, cursorAt_le l p⟩

/-- An instance's absorption position is inside its block (10_state.md R29). -/
theorem Simulates.apos_lt {s : State} {a : Ideal} (h : Simulates s (some a)) :
    s.apos.toNat < s.rate.toNat := by
  obtain ⟨-, hrate, hS, -⟩ := h
  have := spongeAbsorb_position_lt a.level.rate_pos a.seed
  rw [hS] at this
  exact hrate ▸ this

theorem Simulates.rate_le {s : State} {a : Ideal} (h : Simulates s (some a)) :
    s.rate.toNat ≤ 200 := by
  obtain ⟨-, hrate, -⟩ := h
  exact hrate ▸ a.level.rate_le

/-- The rate an `INIT` of a level writes (40_lifecycle.md R103). -/
def initRate : Level → BitVec 8
  | .l128 => rate128
  | .l256 => rate256

theorem exec_initInstr (l : Level) (s : State) :
    exec (initInstr l) s = finish [] (createInstance (initRate l) s) := by
  cases l <;> rfl

/-- `INIT` makes an instance of its level with the empty seed, from any state. -/
theorem simulates_createInstance (l : Level) (s : State) :
    Simulates (createInstance (initRate l) s) (some ⟨l, [], none⟩) :=
  ⟨rfl, by cases l <;> rfl, rfl, rfl, rfl⟩

/-- Absorbing a payload appends it to the seed (40_lifecycle.md R106, R108). -/
theorem simulates_absorb {s : State} {l : Level} {seed : List Byte} (data : List Byte)
    (h : Simulates s (some ⟨l, seed, none⟩)) :
    Simulates (absorb data s) (some ⟨l, seed ++ data, none⟩) := by
  have hsponge := (absorb_sponge data s h.apos_lt h.rate_le).1
  obtain ⟨hv, hrate, hS, hm, hcur⟩ := h
  dsimp only at hrate hS
  have hseed : spongeAbsorb l.rate (seed ++ data) =
      ((absorb data s).S, (absorb data s).apos.toNat) := by
    rw [spongeAbsorb_append, hS, hsponge, hrate]
  rw [absorb_eq]
  exact ⟨hv, hrate, hseed, hm, hcur⟩

/-- `EXPAND`, where a `SQUEEZE` runs it, brings the instance to the start of its stream
(41_lane_expansion.md R129). -/
theorem simulates_expandIfAbsorbing {s : State} {a : Ideal} (h : Simulates s (some a)) :
    Simulates (expandIfAbsorbing s) (some { a with pos := some (a.pos.getD 0) }) := by
  obtain ⟨l, seed, _ | p⟩ := a
  · have hp := h.apos_lt
    have hr := h.rate_le
    obtain ⟨hv, hrate, hS, hm, -⟩ := h
    dsimp only at hrate hS
    have hlane : ∀ j < 8, lane (expandLanes s).width (expandLanes s).buffer j =
        spongeState l.rate (laneMessage seed j) (refillsAt l 0) := fun j hj => by
      rw [refillsAt, Nat.zero_sub, Nat.zero_div, ← hrate]
      exact lane_expandLanes_of_seed hp hr (hrate ▸ hS) hj
    rw [expandIfAbsorbing, if_neg (by simp [squeezingBegun_iff, hm])]
    rw [expandLanes_eq] at hlane ⊢
    exact ⟨hv, hrate, hS, rfl, rfl, rfl, hlane⟩
  · have ⟨_, _, _, hm, _⟩ := h
    rw [expandIfAbsorbing, if_pos ((squeezingBegun_iff s).2 hm)]
    exact h

/-- Delivery returns the next `n` bytes of the stream and advances the position past them (R192;
43_parallel_squeeze.md R166, R172). -/
theorem deliver_simulates {s : State} {l : Level} {seed : List Byte} {p n : Nat}
    (h : Simulates s (some ⟨l, seed, some p⟩)) (hn : n % 64 = 0) :
    (deliver n s).1 = (List.range n).map (fun t => streamByte l seed (p + t)) ∧
      Simulates (deliver n s).2 (some ⟨l, seed, some (p + n)⟩) := by
  have hreg := h.inRange
  obtain ⟨hv, hrate, hS, hm, hp, hcur, hlanes⟩ := h
  dsimp only at hrate hS hp hcur hlanes
  have hbyte : ∀ t, upcomingByte s (s.cursor.toNat + t) = streamByte l seed (p + t) := fun t => by
    rw [upcomingByte_eq_streamByte hrate hlanes, hcur, ← Nat.add_assoc, refillsAt_cursorAt]
  have hcursor : (BitVec.ofNat 11 (cursorAfter s n)).toNat = cursorAt l (p + n) := by
    rw [cursorAt_add hrate hcur, BitVec.toNat_ofNat, Nat.mod_eq_of_lt (cursorAfter_le hm hreg n).2]
  have hlane : ∀ j < 8, lane s.width ((permutedBuffer s.width)^[refillsFor s n] s.buffer) j =
      spongeState l.rate (laneMessage seed j) (refillsAt l (p + n)) := fun j hj => by
    rw [lane_iterate_permutedBuffer _ _ _ hj, hlanes j hj, ← spongeState_add,
      refillsAt_add hrate hcur]
  rw [deliver_eq_of_inRange n hm hreg]
  exact ⟨List.map_congr_left fun t _ => hbyte t, hv, hrate, hS, hm, by omega, hcursor, hlane⟩

/-! ## Runs of commands that all succeed -/

/-- The commands `is`, from `s`, all end with `OK`, leave `t` and return the bytes `out`. -/
def Returns (is : List Instr) (s t : State) (out : List Byte) : Prop :=
  execAll is s = .next t ∧ ∃ responses, t.outbox = s.outbox ++ responses ∧
    (∀ r ∈ responses, r.status = .ok) ∧ payloads responses = out

theorem execAll_append {is : List Instr} {s t : State} (h : execAll is s = .next t)
    (js : List Instr) : execAll (is ++ js) s = execAll js t := by
  induction is generalizing s with
  | nil => cases h; rfl
  | cons i is ih =>
    rw [execAll] at h
    rw [List.cons_append, execAll]
    split at h
    next u hu => exact ih h
    all_goals cases h

theorem Returns.nil (s : State) : Returns [] s s [] :=
  ⟨rfl, [], by simp, by simp, rfl⟩

/-- One command that ends with `OK`. -/
theorem Returns.of_finish {i : Instr} {s u : State} {out : List Byte}
    (h : exec i s = finish out u) (hu : u.outbox = s.outbox) :
    Returns [i] s (u.respond .ok out) out := by
  refine ⟨?_, [⟨.ok, out⟩], ?_, ?_, ?_⟩
  · rw [execAll, h]; rfl
  · rw [State.respond_outbox, hu]
  · simp
  · simp [payloads]

theorem Returns.append {is js : List Instr} {s t u : State} {out out' : List Byte}
    (h : Returns is s t out) (h' : Returns js t u out') : Returns (is ++ js) s u (out ++ out') := by
  obtain ⟨hrun, rs, hbox, hok, hout⟩ := h
  obtain ⟨hrun', rs', hbox', hok', hout'⟩ := h'
  refine ⟨by rw [execAll_append hrun, hrun'], rs ++ rs', ?_, ?_, ?_⟩
  · rw [hbox', hbox, List.append_assoc]
  · exact fun r hr => (List.mem_append.1 hr).elim (hok r) (hok' r)
  · rw [payloads, List.flatMap_append, ← payloads, ← payloads, hout, hout']

/-- `UPDATE`s append their payloads to the seed and return no bytes. -/
theorem returns_updates {l : Level} (payloadList : List (List Byte)) {seed : List Byte} {s : State}
    (h : Simulates s (some ⟨l, seed, none⟩)) :
    ∃ t, Returns (payloadList.map Instr.update) s t [] ∧
      Simulates t (some ⟨l, seed ++ payloadList.flatten, none⟩) := by
  induction payloadList generalizing seed s with
  | nil => exact ⟨s, .nil s, by simpa using h⟩
  | cons data rest ih =>
    have ⟨hv, _, _, hm, _⟩ := h
    have hstep := Returns.of_finish (exec_update_of_absorbing data hv hm) (by rw [absorb_eq])
    obtain ⟨t, hrun, hsim⟩ := ih (simulates_respond .ok [] (simulates_absorb data h))
    exact ⟨t, hstep.append hrun, by simpa using hsim⟩

/-- One aligned `SQUEEZE` returns the next bytes of the stream. -/
theorem returns_squeeze {s : State} {a : Ideal} {n : BitVec 28} (h : Simulates s (some a))
    (hn : n.toNat % 64 = 0) :
    ∃ t, Returns [.squeeze n] s t
        ((List.range n.toNat).map fun k => streamByte a.level a.seed (a.pos.getD 0 + k)) ∧
      Simulates t (some { a with pos := some (a.pos.getD 0 + n.toNat) }) := by
  obtain ⟨hbytes, hsim⟩ := deliver_simulates (simulates_expandIfAbsorbing h) hn
  have ⟨hv, _⟩ := h
  have hstep := Returns.of_finish (exec_squeeze_of_aligned hv hn)
    (by rw [deliver_expandIfAbsorbing_frame])
  rw [hbytes] at hstep
  exact ⟨_, hstep, simulates_respond .ok _ hsim⟩

/-- Aligned `SQUEEZE`s return consecutive pieces of the stream, however the length is cut up. -/
theorem returns_squeezes (lengths : List (BitVec 28)) {s : State} {a : Ideal}
    (h : Simulates s (some a)) (hn : ∀ n ∈ lengths, n.toNat % 64 = 0) :
    ∃ t, Returns (lengths.map Instr.squeeze) s t
      ((List.range (lengths.map BitVec.toNat).sum).map fun k =>
        streamByte a.level a.seed (a.pos.getD 0 + k)) := by
  induction lengths generalizing s a with
  | nil => exact ⟨s, .nil s⟩
  | cons n rest ih =>
    obtain ⟨u, hstep, hsim⟩ := returns_squeeze h (hn n List.mem_cons_self)
    obtain ⟨t, hrun⟩ := ih hsim fun m hm => hn m (List.mem_cons_of_mem n hm)
    refine ⟨t, ?_⟩
    rw [List.map_cons, List.map_cons, List.sum_cons, List.range_add, List.map_append, List.map_map]
    simpa [Function.comp_def, Nat.add_assoc] using hstep.append hrun

/-- Settles O53: the `INIT` makes an instance with the empty seed, the `UPDATE`s append their payloads
to it, and the `SQUEEZE`s return consecutive pieces of its output stream from position 0. -/
theorem conformsToSequentialReference : Obligations.ConformsToSequentialReference := by
  intro s l payloadList lengths haligned
  have hinit := Returns.of_finish (exec_initInstr l s) (createInstance_outbox (initRate l) s)
  obtain ⟨t, hupdates, hsim⟩ :=
    returns_updates payloadList (simulates_respond .ok [] (simulates_createInstance l s))
  obtain ⟨u, hsqueezes⟩ := returns_squeezes lengths hsim haligned
  obtain ⟨hrun, responses, hbox, hok, hbytes⟩ := hinit.append (hupdates.append hsqueezes)
  exact ⟨u, responses, hrun, hbox, hok, by simpa [reference] using hbytes⟩

end Sys2Proof

/-! SUPPORT. The proofs of the statements on errors (60_exceptions.md). -/

namespace Sys2Proof

open Sys2Proof.Machine

/-- Settles O31: an initialised instance fails the length check, the only one left before delivery. -/
theorem squeezeRejectsMisalignedLength : Obligations.SqueezeRejectsMisalignedLength := by
  intro s n hv hn
  rcases execSqueeze_cases n s with ⟨hv', _⟩ | ⟨_, _, hraise⟩ | ⟨_, hn', _⟩
  · simp [hv] at hv'
  · exact hraise
  · exact absurd hn' hn

/-- An instruction ends with an error at the state it was given, with `OK`, or, for a micro-operation,
with no response (60_exceptions.md R236; 30_encoding.md R80). -/
theorem exec_cases (i : Instr) (s : State) :
    (∃ e, exec i s = raise e s) ∨
    (∃ out u, exec i s = finish out u ∧ u.outbox = s.outbox) ∨
    (∃ u, exec i s = .next u ∧ u.outbox = s.outbox) := by
  cases i with
  | init128 => exact .inr (.inl ⟨_, _, rfl, createInstance_outbox rate128 s⟩)
  | init256 => exact .inr (.inl ⟨_, _, rfl, createInstance_outbox rate256 s⟩)
  | update data =>
    rcases execUpdate_cases data s with ⟨_, hraise⟩ | ⟨_, _, hfinish⟩
    · exact .inl ⟨_, hraise⟩
    · exact .inr (.inl ⟨_, _, hfinish, by rw [absorb_eq]⟩)
  | squeeze n =>
    rcases execSqueeze_cases n s with ⟨_, hraise⟩ | ⟨_, _, hraise⟩ | ⟨_, _, hfinish⟩
    · exact .inl ⟨_, hraise⟩
    · exact .inl ⟨_, hraise⟩
    · exact .inr (.inl ⟨_, _, hfinish, by rw [deliver_expandIfAbsorbing_frame]⟩)
  | finalize => exact .inr (.inr ⟨s, rfl, rfl⟩)
  | expand =>
    rcases execExpand_cases s with ⟨_, hraise⟩ | ⟨_, hnext⟩
    · exact .inl ⟨_, hraise⟩
    · exact .inr (.inr ⟨_, hnext, by rw [expandLanes_eq]⟩)
  | permall => exact .inr (.inr ⟨_, exec_permall s, by rw [permuteAllLanes_eq]⟩)

/-- Raising an error writes the response and nothing else, and the response has no payload (R236). -/
theorem raise_frame {e : Status} {s t : State} {r : Response} (h : raise e s = .next t)
    (hbox : t.outbox = s.outbox ++ [r]) :
    r.payload = [] ∧ t = { s with outbox := s.outbox ++ [r] } := by
  cases h
  obtain rfl : ⟨e, []⟩ = r := by simpa using hbox
  exact ⟨rfl, rfl⟩

/-- The response of a command that finishes has the status `OK` (30_encoding.md R86). -/
theorem finish_status {out : List Byte} {s u t : State} {r : Response}
    (h : finish out u = .next t) (hu : u.outbox = s.outbox) (hbox : t.outbox = s.outbox ++ [r]) :
    r.status = .ok := by
  cases h
  obtain rfl : ⟨.ok, out⟩ = r := by simpa [hu] using hbox
  rfl

/-- An instruction whose response is an error has raised it, since every other end of one responds
`OK` or not at all. -/
theorem exec_error_frame {i : Instr} {s t : State} {r : Response} (h : exec i s = .next t)
    (hbox : t.outbox = s.outbox ++ [r]) (hr : r.status ≠ .ok) :
    r.payload = [] ∧ t = { s with outbox := s.outbox ++ [r] } := by
  rcases exec_cases i s with ⟨e, hraise⟩ | ⟨out, u, hfinish, hu⟩ | ⟨u, hnext, hu⟩
  · exact raise_frame (hraise.symm.trans h) hbox
  · exact absurd (finish_status (hfinish.symm.trans h) hu hbox) hr
  · cases hnext.symm.trans h
    simp [hu] at hbox

/-- Settles O45: an error is raised by an instruction or by the decoder, at the state whose input has
been taken; waiting and a power-on reset return no response, and a malformed transaction has no next
state. -/
theorem errorsChangeNothing : Obligations.ErrorsChangeNothing := by
  intro s t r h hbox hr
  rcases step_cases s with ⟨_, hwait⟩ | ⟨_, _, _, hin, _, hexec⟩ | ⟨_, _, hin, _, hraise⟩ |
    ⟨_, _, _, _, hrefused⟩ | ⟨_, _, hreset⟩
  · cases hwait.symm.trans h
    simp at hbox
  · rw [hin]
    exact exec_error_frame (hexec.symm.trans h) hbox hr
  · rw [hin]
    exact raise_frame (hraise.symm.trans h) hbox
  · cases hrefused.symm.trans h
  · cases hreset.symm.trans h
    simp at hbox

end Sys2Proof

/-! SUPPORT. The proofs of the statements on encodings and on the command channel (30_encoding.md). -/

namespace Sys2Proof

open Sys2Proof.Machine

/-! ## The decoder -/

/-- What the decoder makes of a transaction the host can present: one of the four commands of R83, or
an illegal word of R87. -/
theorem decode_cases_of_presentable {t : Transaction} (hp : t.presentable = true) :
    (opField t.word = 1#4 ∧ argField t.word = 0#28 ∧ decode t = .ok .init128) ∨
    (opField t.word = 2#4 ∧ argField t.word = 0#28 ∧ decode t = .ok .init256) ∨
    (opField t.word = 3#4 ∧ decode t = .ok (.update t.payload)) ∨
    (opField t.word = 4#4 ∧ decode t = .ok (.squeeze (argField t.word))) ∨
    ((opField t.word = 0#4 ∨ 5#4 ≤ opField t.word ∨
        ((opField t.word = 1#4 ∨ opField t.word = 2#4) ∧ argField t.word ≠ 0#28)) ∧
      decode t = .error .invalidCommand) := by
  unfold decode
  rw [if_pos hp]
  generalize opField t.word = op
  by_cases h1 : op = 1#4
  · by_cases ha : argField t.word = 0#28 <;> simp [h1, ha]
  · by_cases h2 : op = 2#4
    · by_cases ha : argField t.word = 0#28 <;> simp [h2, ha]
    · by_cases h3 : op = 3#4
      · simp [h3]
      · by_cases h4 : op = 4#4
        · simp [h4]
        · have h0 : op = 0#4 ∨ 5#4 ≤ op := by bv_omega
          simp [h1, h2, h3, h4, h0]

/-- A payload of the wrong length is refused before the word is looked at (R84). -/
theorem decode_of_not_presentable {t : Transaction} (hp : t.presentable = false) :
    decode t = .error .malformedPayload := by
  rw [decode, hp]
  rfl

theorem decode_ne_malformedPayload {t : Transaction} (hp : t.presentable = true) :
    decode t ≠ .error .malformedPayload := by
  rcases decode_cases_of_presentable hp with ⟨-, -, e⟩ | ⟨-, -, e⟩ | ⟨-, e⟩ | ⟨-, e⟩ | ⟨-, e⟩ <;>
    simp [e]

theorem presentable_of_decode_ok {t : Transaction} {i : Instr} (h : decode t = .ok i) :
    t.presentable = true := by
  by_contra hp
  rw [decode_of_not_presentable (Bool.not_eq_true _ ▸ hp)] at h
  cases h

/-- Everything a decoded instruction says of its transaction: the word's fields, and the payload. -/
theorem decode_ok_cases {t : Transaction} {i : Instr} (h : decode t = .ok i) :
    (opField t.word = 1#4 ∧ argField t.word = 0#28 ∧ i = .init128) ∨
    (opField t.word = 2#4 ∧ argField t.word = 0#28 ∧ i = .init256) ∨
    (opField t.word = 3#4 ∧ i = .update t.payload) ∨
    (opField t.word = 4#4 ∧ i = .squeeze (argField t.word)) := by
  rcases decode_cases_of_presentable (presentable_of_decode_ok h) with
    ⟨hop, ha, e⟩ | ⟨hop, ha, e⟩ | ⟨hop, e⟩ | ⟨hop, e⟩ | ⟨-, e⟩ <;>
    cases h.symm.trans e
  · exact .inl ⟨hop, ha, rfl⟩
  · exact .inr (.inl ⟨hop, ha, rfl⟩)
  · exact .inr (.inr (.inl ⟨hop, rfl⟩))
  · exact .inr (.inr (.inr ⟨hop, rfl⟩))

/-- Only `UPDATE` announces a payload (R88). -/
theorem payload_eq_nil {t : Transaction} (hp : t.presentable = true) (hop : opField t.word ≠ 3#4) :
    t.payload = [] := by
  rw [presentable_iff, payloadLength, if_neg hop] at hp
  exact List.eq_nil_of_length_eq_zero hp

/-- A transaction is given by the two fields of its word and its payload. -/
theorem transaction_eq {t : Transaction} {o : BitVec 4} {a : BitVec 28} {p : List Byte}
    (ho : opField t.word = o) (ha : argField t.word = a) (hp : t.payload = p) :
    ⟨o ++ a, p⟩ = t := by
  rw [← ho, ← ha, ← hp, opField_append_argField]

/-- Whatever the encoder makes of a well-formed instruction, the host can present (R84). -/
theorem presentable_of_encode {i : Instr} (hw : i.wellFormed = true) {t : Transaction}
    (h : encode i = some t) : t.presentable = true := by
  cases i with
  | init128 => exact Laws.EncodePresentable.init128 hw t h
  | init256 => exact Laws.EncodePresentable.init256 hw t h
  | update data => exact Laws.EncodePresentable.update data hw t h
  | squeeze n => exact Laws.EncodePresentable.squeeze n hw t h
  | finalize => exact Laws.EncodePresentable.finalize hw t h
  | expand => exact Laws.EncodePresentable.expand hw t h
  | permall => exact Laws.EncodePresentable.permall hw t h

/-- The decoder reads back what the encoder wrote (R83). -/
theorem decode_of_encode {i : Instr} (hw : i.wellFormed = true) {t : Transaction}
    (h : encode i = some t) : decode t = .ok i := by
  have hp := presentable_of_encode hw h
  cases i with
  | init128 => cases h; rfl
  | init256 => cases h; rfl
  | update data => cases h; simp [decode, hp]
  | squeeze n => cases h; simp [decode, hp]
  | finalize => cases h
  | expand => cases h
  | permall => cases h

/-- Settles O1: the host commands are exactly the instructions with an encoding, and the decoder reads
each encoding back. -/
theorem decodeEncodeAgree : Obligations.DecodeEncodeAgree := by
  intro i hw hi
  have henc : ∃ t, encode i = some t := by cases i <;> simp [encode, Instr.hostIssuable] at hi ⊢
  obtain ⟨t, ht⟩ := henc
  exact ⟨t, ht, presentable_of_encode hw ht, decode_of_encode hw ht⟩

/-- Settles O2: the fields and the payload the decoder tested are all there is to a transaction. -/
theorem encodeDecodeAgree : Obligations.EncodeDecodeAgree := by
  intro t i h
  have hp := presentable_of_decode_ok h
  have hnil : opField t.word ≠ 3#4 → t.payload = [] := payload_eq_nil hp
  rcases decode_ok_cases h with ⟨hop, ha, rfl⟩ | ⟨hop, ha, rfl⟩ | ⟨hop, rfl⟩ | ⟨hop, rfl⟩
  · exact ⟨congrArg some (transaction_eq hop ha (hnil (by simp [hop]))), rfl, rfl⟩
  · exact ⟨congrArg some (transaction_eq hop ha (hnil (by simp [hop]))), rfl, rfl⟩
  · have hlen : t.payload.length = (argField t.word).toNat := by
      rw [(presentable_iff t).1 hp, payloadLength, if_pos hop]
    have ha : argField t.word = BitVec.ofNat 28 t.payload.length := by
      rw [hlen, BitVec.ofNat_toNat, BitVec.setWidth_eq]
    refine ⟨congrArg some (transaction_eq hop ha rfl), ?_, rfl⟩
    rw [Instr.wellFormed, hlen]
    exact decide_eq_true (argField t.word).isLt
  · exact ⟨congrArg some (transaction_eq hop rfl (hnil (by simp [hop]))), rfl, rfl⟩

/-- No word spells a micro-operation (R89). -/
theorem hostIssuable_of_decode_ok {t : Transaction} {i : Instr} (h : decode t = .ok i) :
    i.hostIssuable = true := (encodeDecodeAgree t i h).2.2

/-! ## The step on what is presented -/

theorem step_of_command {s : State} {t : Transaction} {rest : List HostInput}
    (h : s.inbox = .command t :: rest) : step s = runTransaction t { s with inbox := rest } := by
  rw [step, h]

/-- Settles O7: the step hands the transaction to the decoder, and what it decodes to `exec`. -/
theorem stepRunsDecodedInstruction : Obligations.StepRunsDecodedInstruction := by
  intro s t rest i hin hdec
  rw [step_of_command hin, runTransaction, hdec]

/-- An illegal word is answered `InvalidCommand` (R87). -/
theorem step_of_invalidCommand {s : State} {t : Transaction} {rest : List HostInput}
    (hin : s.inbox = .command t :: rest) (hdec : decode t = .error .invalidCommand) :
    step s = .next { s with inbox := rest, outbox := s.outbox ++ [⟨.invalidCommand, []⟩] } := by
  rw [step_of_command hin, runTransaction, hdec]
  rfl

theorem opField_eq_iff (w : BitVec 32) (k : BitVec 4) :
    opField w = k ↔ w.toNat / 2 ^ 28 = k.toNat := by
  rw [← opField_toNat, BitVec.toNat_inj]

theorem argField_eq_zero_iff (w : BitVec 32) : argField w = 0#28 ↔ w.toNat % 2 ^ 28 = 0 := by
  rw [← argField_toNat, ← BitVec.toNat_inj]
  rfl

/-- Settles O3: the decoder's tests on the two fields are tests on the quotient and the remainder of
the word. -/
theorem everyWordIsCommandOrIllegal : Obligations.EveryWordIsCommandOrIllegal := by
  intro s t rest hin hp op arg
  have hop : ∀ k : BitVec 4, opField t.word = k ↔ op = k.toNat := opField_eq_iff t.word
  have hle : 5#4 ≤ opField t.word ↔ 5 ≤ op := by rw [BitVec.le_def, opField_toNat]; rfl
  have harg : argField t.word = 0#28 ↔ arg = 0 := argField_eq_zero_iff t.word
  have hcases := decode_cases_of_presentable hp
  simp only [hop, hle, harg, ne_eq, BitVec.toNat_ofNat, Nat.reducePow, Nat.reduceMod] at hcases
  have hrun : ∀ i, decode t = .ok i →
      ∃ i, decode t = .ok i ∧ i.hostIssuable = true ∧ step s = exec i { s with inbox := rest } :=
    fun i e => ⟨i, e, hostIssuable_of_decode_ok e, stepRunsDecodedInstruction s t rest i hin e⟩
  constructor
  · intro hillegal
    rcases hcases with ⟨_, _, _⟩ | ⟨_, _, _⟩ | ⟨_, _⟩ | ⟨_, _⟩ | ⟨_, e⟩
    · omega
    · omega
    · omega
    · omega
    · exact step_of_invalidCommand hin e
  · intro hlegal
    rcases hcases with ⟨-, -, e⟩ | ⟨-, -, e⟩ | ⟨-, e⟩ | ⟨-, e⟩ | ⟨h, -⟩
    · exact hrun _ e
    · exact hrun _ e
    · exact hrun _ e
    · exact hrun _ e
    · exact absurd h hlegal

/-- Settles O8: the two statements on the encoding, carried to the step. -/
theorem stepRunsEncodedInstruction : Obligations.StepRunsEncodedInstruction :=
  fun s i t rest hw henc hin => stepRunsDecodedInstruction s t rest i hin (decode_of_encode hw henc)

/-- Settles O9: both conventions are branches of the step. -/
theorem stepWaitsAndRefusesMalformed : Obligations.StepWaitsAndRefusesMalformed := by
  constructor
  · intro s hin
    rw [step, hin]
  · intro s t rest hin hp
    rw [step_of_command hin, runTransaction, decode_of_not_presentable hp]

/-! ## Words, status codes and request descriptors -/

/-- Settles O4: each word is spelled out, so the decoder runs. -/
theorem specCommandWordsDecode : Obligations.SpecCommandWordsDecode := by
  unfold Obligations.SpecCommandWordsDecode
  decide

/-- Settles O5: the codes are R86's table. -/
theorem statusCodesAsListed : Obligations.StatusCodesAsListed := ⟨rfl, rfl, rfl, rfl⟩

/-- `WIDTH` is read back from its nibble (R90). -/
theorem decodeWidth_lanes (W : VectorWidth) : decodeWidth (BitVec.ofNat 4 W.lanes) = some W := by
  cases W <;> rfl

theorem Preq.wellFormed_iff (q : Preq) :
    q.wellFormed = true ↔ q.base % q.width.lanes = 0 ∧ q.base + q.width.lanes ≤ 8 := by
  simp only [Preq.wellFormed, Bool.and_eq_true, decide_eq_true_eq, Config.lanes]

/-- A request is read back from its descriptor, whose two nibbles are `WIDTH` and `BASE` (R90). -/
theorem decodePreq_encodePreq {q : Preq} (h : q.wellFormed = true) :
    decodePreq (encodePreq q) = some q := by
  obtain ⟨-, hle⟩ := (Preq.wellFormed_iff q).1 h
  have hbase : q.base % 2 ^ 4 = q.base := by omega
  rw [decodePreq, encodePreq, BitVec.extractLsb'_append_eq_left, decodeWidth_lanes]
  simp only [BitVec.extractLsb'_append_eq_right, BitVec.toNat_ofNat, hbase, h, if_true]

/-- Settles O6: the descriptors are 256 values, of which the decoder accepts eleven; that a request is
read back is seen on the two nibbles. -/
theorem requestDescriptorsRoundTrip : Obligations.RequestDescriptorsRoundTrip :=
  ⟨by decide, fun _ h => decodePreq_encodePreq h⟩

end Sys2Proof

/-! SUPPORT. The proofs of the statements on reset and on the lifecycle commands (10_state.md,
40_lifecycle.md, 70_reset_and_hazards.md). -/

namespace Sys2Proof

open Sys2Proof.Machine

/-! ## Reset -/

/-- Settles O10: these fields of the reset state are constants. -/
theorem resetLeavesNoInstance : Obligations.ResetLeavesNoInstance :=
  ⟨rfl, rfl, rfl, rfl, rfl, rfl⟩

/-- Settles O42: before the first `INIT` the invariants ask only for a canonical buffer, Absorbing mode
and a zero cursor. -/
theorem resetMeetsInvariants : Obligations.ResetMeetsInvariants where
  bufferWf := Memory.zeros_wf
  noInstance _ := ⟨rfl, rfl⟩
  rateLegal := nofun
  aposInBlock := nofun
  cursorInSuperBlock := nofun
  cursorOnRow := nofun
  absorbingAtZero := nofun

/-- Settles O19: outside Absorbing mode the checks of `UPDATE` come to their end before a byte is
absorbed. -/
theorem updateRejectedOutsideAbsorbing : Obligations.UpdateRejectedOutsideAbsorbing := by
  intro s data h
  rcases execUpdate_cases data s with ⟨-, hraise⟩ | ⟨hv, hm, -⟩
  · exact hraise
  · simp [hv, hm] at h

/-- Settles O30: the lifecycle check of `SQUEEZE` comes before its length check. -/
theorem squeezeRejectedBeforeInit : Obligations.SqueezeRejectedBeforeInit := by
  intro s n h
  rcases execSqueeze_cases n s with ⟨-, hraise⟩ | ⟨hv, -⟩ | ⟨hv, -⟩
  · exact hraise
  · simp [h] at hv
  · simp [h] at hv

/-- Settles O11: the reset leaves `valid = 0`, which is what the two commands test first. -/
theorem powerOnResetEndsInstance : Obligations.PowerOnResetEndsInstance := by
  intro s rest hin
  refine ⟨powerOnReset { s with inbox := rest }, by rw [step, hin], rfl, rfl, rfl, rfl, rfl, rfl,
    fun data => updateRejectedOutsideAbsorbing _ data (.inl rfl),
    fun n => squeezeRejectedBeforeInit _ n rfl⟩

/-! ## INIT128, INIT256 -/

/-- An `INIT` word with an `ARG` other than 0 is illegal (30_encoding.md R87). -/
theorem step_of_init_with_arg {s : State} {op : BitVec 4} {arg : BitVec 28} {rest : List HostInput}
    (hop : op = 1#4 ∨ op = 2#4) (harg : arg ≠ 0#28)
    (hin : s.inbox = .command ⟨op ++ arg, []⟩ :: rest) :
    step s = .next { s with inbox := rest, outbox := s.outbox ++ [⟨.invalidCommand, []⟩] } := by
  apply step_of_invalidCommand hin
  have hp : Transaction.presentable ⟨op ++ arg, []⟩ = true := by
    rcases hop with rfl | rfl <;> simp [presentable_iff, payloadLength]
  rcases hop with rfl | rfl <;> simp [decode, hp, harg]

/-- Settles O12: creation writes every element of the instance, and the buffer of zeros holds lanes of
zeros. -/
theorem init128CreatesInstance : Obligations.Init128CreatesInstance :=
  ⟨fun s => ⟨_, rfl, rfl, fun j _ => lane_zeros s.width j⟩,
    fun _ _ _ harg hin => step_of_init_with_arg (.inl rfl) harg hin⟩

/-- Settles O13: as for `INIT128`. -/
theorem init256CreatesInstance : Obligations.Init256CreatesInstance :=
  ⟨fun s => ⟨_, rfl, rfl, fun j _ => lane_zeros s.width j⟩,
    fun _ _ _ harg hin => step_of_init_with_arg (.inr rfl) harg hin⟩

/-- A response writes no element of the instance. -/
@[simp] theorem snapshot_respond (s : State) (e : Status) (out : List Byte) :
    snapshot (s.respond e out) = snapshot s := rfl

/-- Equal snapshots are equal elements, the lanes one by one on the logical view (10_state.md R34). -/
theorem snapshot_eq_iff (s s' : State) :
    snapshot s = snapshot s' ↔
      s.valid = s'.valid ∧ s.mode = s'.mode ∧ s.rate = s'.rate ∧ s.cursor = s'.cursor ∧
      s.apos = s'.apos ∧ s.S = s'.S ∧
      ∀ j < 8, lane s.width s.buffer j = lane s'.width s'.buffer j := by
  simp [snapshot]

/-- The instance an `INIT` creates does not depend on the state it is created in. -/
theorem snapshot_createInstance (r : BitVec 8) (s s' : State) :
    snapshot (createInstance r s) = snapshot (createInstance r s') := by
  simp [snapshot_eq_iff]

/-- The invariants speak of the buffer and the registers only, so a response keeps them. -/
theorem Inv.respond {s : State} (h : Inv s) (e : Status) (out : List Byte) :
    Inv (s.respond e out) := ⟨h.1, h.2, h.3, h.4, h.5, h.6, h.7⟩

theorem initRate_toNat (l : Level) : (initRate l).toNat = l.rate := by cases l <;> rfl

theorem inv_createInstance (l : Level) (s : State) : Inv (createInstance (initRate l) s) where
  bufferWf := Memory.zeros_wf
  noInstance := nofun
  rateLegal _ := by cases l <;> simp [initRate, rate128, rate256]
  aposInBlock _ := by rw [createInstance_rate, initRate_toNat]; exact l.rate_pos
  cursorInSuperBlock _ := Nat.zero_le _
  cursorOnRow _ := rfl
  absorbingAtZero _ _ := rfl

/-- Settles O14: both engines end in the instance creation leaves, whatever was there before. -/
theorem initErasesPreviousInstance : Obligations.InitErasesPreviousInstance := fun l s s' =>
  ⟨_, _, exec_initInstr l s, exec_initInstr l s', snapshot_createInstance (initRate l) s s',
    (inv_createInstance l s).respond .ok []⟩

/-! ## UPDATE -/

/-- Absorbing reads neither `cursor` nor the responses, and keeps both. -/
theorem absorb_with_cursor_outbox (data : List Byte) (s : State) (c : BitVec 11) (o : List Response) :
    absorb data { s with cursor := c, outbox := o } =
      { absorb data s with cursor := c, outbox := o } := by
  induction data generalizing s with
  | nil => rfl
  | cons x data ih =>
    have hbyte : absorbByte { s with cursor := c, outbox := o } x =
        { absorbByte s x with cursor := c, outbox := o } := by
      unfold absorbByte
      dsimp only
      split <;> rfl
    rw [absorb_cons, hbyte, ih, absorb_cons]

theorem absorb_respond (data : List Byte) (s : State) (e : Status) (out : List Byte) :
    absorb data (s.respond e out) = (absorb data s).respond e out := by
  have h := absorb_with_cursor_outbox data s s.cursor (s.outbox ++ [⟨e, out⟩])
  rw [State.respond, h, absorb_eq]
  rfl

theorem absorb_append (a b : List Byte) (s : State) :
    absorb (a ++ b) s = absorb b (absorb a s) := List.foldl_append

/-- Settles O15: `Absorb` is the sponge's absorbing, and writes `S`, `apos` and the count only. -/
theorem updateAbsorbsPayload : Obligations.UpdateAbsorbsPayload := by
  intro s data hv hm hreg
  obtain ⟨hr, ha⟩ := (registersInRange_absorbing hm).1 hreg
  obtain ⟨hsponge, hpos⟩ := absorb_sponge data s ha hr
  refine ⟨_, exec_update_of_absorbing data hv hm, hsponge, hpos, ?_⟩
  rw [absorb_eq]
  rfl

/-- One byte fills at most one block (40_lifecycle.md R109). -/
theorem absorbByte_counts (s : State) (x : Byte) (h : s.apos.toNat < s.rate.toNat) :
    (absorbByte s x).scalarPerms =
        s.scalarPerms + (s.apos.toNat + 1) / s.rate.toNat ∧
      (absorbByte s x).apos.toNat = (s.apos.toNat + 1) % s.rate.toNat := by
  have := s.rate.isLt
  unfold absorbByte
  by_cases hb : s.apos.toNat + 1 = s.rate.toNat
  · rw [if_pos hb, hb, Nat.mod_self, Nat.div_self (by omega)]
    exact ⟨rfl, rfl⟩
  · rw [if_neg hb, Nat.mod_eq_of_lt (by omega), Nat.div_eq_of_lt (by omega)]
    refine ⟨rfl, ?_⟩
    show (nextApos s).toNat = _
    rw [nextApos, if_pos (by omega), BitVec.toNat_ofNat, Nat.mod_eq_of_lt (by omega)]

/-- The blocks a payload fills, and the position after it: the quotient and the remainder of the bytes
absorbed since the block began (R109). -/
theorem absorb_counts (data : List Byte) (s : State) (h : s.apos.toNat < s.rate.toNat) :
    (absorb data s).scalarPerms =
        s.scalarPerms + (s.apos.toNat + data.length) / s.rate.toNat ∧
      (absorb data s).apos.toNat = (s.apos.toNat + data.length) % s.rate.toNat := by
  have h0 : 0 < s.rate.toNat := by omega
  induction data generalizing s with
  | nil => simp [Nat.div_eq_of_lt h, Nat.mod_eq_of_lt h]
  | cons x data ih =>
    obtain ⟨hcount, hpos⟩ := absorbByte_counts s x h
    obtain ⟨ihcount, ihpos⟩ := ih (absorbByte s x)
      (by rw [absorbByte_rate, hpos]; exact Nat.mod_lt _ h0) (by rwa [absorbByte_rate])
    have hlen : s.apos.toNat + (x :: data).length =
        data.length + (s.apos.toNat + 1) % s.rate.toNat +
          s.rate.toNat * ((s.apos.toNat + 1) / s.rate.toNat) := by
      have := Nat.mod_add_div (s.apos.toNat + 1) s.rate.toNat
      rw [List.length_cons]
      omega
    rw [absorbByte_rate, hpos, Nat.add_comm _ data.length] at ihcount ihpos
    rw [absorb_cons, hlen, Nat.add_mul_div_left _ _ h0, Nat.add_mul_mod_self_left]
    exact ⟨by omega, ihpos⟩

/-- Settles O16: each byte that fills the block permutes `S` once and takes the position back to 0. -/
theorem updateCountsBlocks : Obligations.UpdateCountsBlocks := by
  intro s data hv hm hreg
  obtain ⟨-, ha⟩ := (registersInRange_absorbing hm).1 hreg
  exact ⟨_, exec_update_of_absorbing data hv hm, absorb_counts data s ha⟩

/-- Settles O17: absorbing one payload after the other is absorbing them joined, and the response
between them is not read. -/
theorem updateSplits : Obligations.UpdateSplits := by
  intro s a b hv hm
  have ht : ((absorb a s).respond .ok []).valid = true ∧
      ((absorb a s).respond .ok []).mode = .absorbing := by
    rw [absorb_eq]
    exact ⟨hv, hm⟩
  have hbox : ∀ data, (absorb data s).outbox = s.outbox := fun data => by rw [absorb_eq]
  refine ⟨_, _, _, exec_update_of_absorbing a hv hm, exec_update_of_absorbing b ht.1 ht.2,
    exec_update_of_absorbing (a ++ b) hv hm, ?_, by rw [State.respond_outbox, hbox]⟩
  rw [absorb_respond, ← absorb_append]
  simp [State.respond, hbox]

/-- Settles O18: no byte, no pass of the loop; the checks come first. -/
theorem emptyUpdateChangesNothing : Obligations.EmptyUpdateChangesNothing :=
  ⟨fun _ hv hm => exec_update_of_absorbing [] hv hm, fun s h => updateRejectedOutsideAbsorbing s [] h⟩

/-- One byte moves the sponge's position by one, and a full block takes it back to 0
(45_external_primitives.md R214). -/
theorem spongeAbsorbByte_position {rate : Nat} {p : PState × Nat} (h : p.2 < rate) (x : Byte) :
    (spongeAbsorbByte rate p x).2 = (p.2 + 1) % rate := by
  unfold spongeAbsorbByte
  split
  next hfull => rw [hfull, Nat.mod_self]
  next hfull => rw [Nat.mod_eq_of_lt (by omega)]

/-- The sponge's position is the number of bytes absorbed, modulo the rate (R214). -/
theorem spongeAbsorb_position {rate : Nat} (h0 : 0 < rate) (M : List Byte) :
    (spongeAbsorb rate M).2 = M.length % rate := by
  induction M using List.reverseRecOn with
  | nil => rfl
  | append_singleton M x ih =>
    rw [spongeAbsorb_append, List.foldl_cons, List.foldl_nil,
      spongeAbsorbByte_position (spongeAbsorb_position_lt h0 M), ih, Nat.mod_add_mod,
      List.length_append, List.length_singleton]

/-- Settles O20: after the `INIT` and the `UPDATE`s the state stands for the ideal instance whose seed
is the payloads joined, still absorbing. -/
theorem seedDeterminesAbsorptionState : Obligations.SeedDeterminesAbsorptionState := by
  intro s l payloadList
  have hinit := Returns.of_finish (exec_initInstr l s) (createInstance_outbox (initRate l) s)
  obtain ⟨t, hupdates, hsim⟩ :=
    returns_updates payloadList (simulates_respond .ok [] (simulates_createInstance l s))
  obtain ⟨hrun, -⟩ := hinit.append hupdates
  obtain ⟨hv, hrate, hS, hm, hcur⟩ := hsim
  have hpos := spongeAbsorb_position l.rate_pos payloadList.flatten
  rw [List.nil_append] at hS
  rw [hS] at hpos
  exact ⟨t, hrun, hv, hm, hcur, hrate, hS.symm, hpos⟩

end Sys2Proof

/-! SUPPORT. The proofs of the statements on Lane Expansion, the permutation scheduler and the layout
(20_memory.md, 41_lane_expansion.md, 42_permutation_scheduler.md). -/

namespace Sys2Proof

open Sys2Proof.Machine

/-! ## FINALIZE, EXPAND -/

/-- Settles O21: the mark has no storage of its own. -/
theorem finalizeChangesNothing : Obligations.FinalizeChangesNothing := fun _ => rfl

/-- Settles O24: the mode is the one check of `EXPAND`. -/
theorem expandGuardsAgainstSecondRun : Obligations.ExpandGuardsAgainstSecondRun := by
  intro s hm
  rcases execExpand_cases s with ⟨-, hraise⟩ | ⟨ha, -⟩
  · exact hraise
  · simp [hm] at ha

/-- Lane `j` after `EXPAND`, wherever every byte position it writes is one of the 200 of a state
(41_lane_expansion.md R123): those of `apos`, of the suffix after it, and of `rate − 1`. -/
theorem expandedLane_of_inState {rate apos : Nat} (S : PState) (j : Nat) (h0 : 0 < rate)
    (hr : rate ≤ 200) (ha : apos < 200) (hlast : apos = 199 → rate = 200) :
    expandedLane rate apos S j =
      if apos + 1 = rate then
        keccakP (((keccakP (S.xorByte apos (BitVec.ofNat 8 j))).xorByte 0 0x1F#8).xorByte
          (rate - 1) 0x80#8)
      else
        keccakP (((S.xorByte apos (BitVec.ofNat 8 j)).xorByte (apos + 1) 0x1F#8).xorByte
          (rate - 1) 0x80#8) := by
  have hl : lastIndex rate = rate - 1 := if_neg (by omega)
  simp only [expandedLane, hl, dsuffix, padend]
  by_cases hfull : apos + 1 = rate
  · rw [if_pos hfull, if_pos hfull, xorStateByte_of_lt _ _ ha, xorStateByte_of_lt _ _ (by omega),
      xorStateByte_of_lt _ _ (by omega)]
  · rw [if_neg hfull, if_neg hfull, xorStateByte_of_lt _ _ ha, xorStateByte_of_lt _ _ (by omega),
      xorStateByte_of_lt _ _ (by omega)]

/-- `EXPAND` leaves in lane `j` a function of `rate`, `apos` and `S` (R123). -/
theorem lane_expandLanes (s : State) {j : Nat} (hj : j < 8) :
    lane (expandLanes s).width (expandLanes s).buffer j =
      expandedLane s.rate.toNat s.apos.toNat s.S j := by
  rw [expandLanes_eq]
  exact lane_expandedBuffer_eq s hj

/-- `EXPAND` writes the buffer, the trace, `cursor` and `mode`, and nothing else (R122). -/
theorem expandLanes_frame (s : State) :
    expandLanes s =
      { s with
        buffer := (expandLanes s).buffer, trace := (expandLanes s).trace, cursor := 0#11,
        mode := .squeezing } := by
  rw [expandLanes_eq]

/-- Settles O22: from registers in range every position is inside a state. -/
theorem expandPreparesLanes : Obligations.ExpandPreparesLanes := by
  intro s hm hreg
  obtain ⟨hr, ha⟩ := (registersInRange_absorbing hm).1 hreg
  refine ⟨_, exec_expand_of_absorbing hm, fun j hj => ?_, expandLanes_frame s⟩
  rw [lane_expandLanes s hj]
  exact expandedLane_of_inState s.S j (by omega) hr (by omega) (by omega)

theorem requests_length (W : VectorWidth) :
    ((requests W).map encodePreq).length = 8 / W.lanes := by
  simp [requests]

theorem expandBatches_eq_of_lt {s : State} (ha : s.apos.toNat < s.rate.toNat) :
    expandBatches s = if s.apos.toNat = s.rate.toNat - 1 then 2 else 1 := by
  have hfull : s.apos.toNat + 1 = s.rate.toNat ↔ s.apos.toNat = s.rate.toNat - 1 := by omega
  simp only [expandBatches, hfull]

/-- Settles O25: the trace of `EXPAND` is one batch, and one more before the padding when the lane byte
fills the block. -/
theorem expandCountsBatches : Obligations.ExpandCountsBatches := by
  intro s hm hreg
  obtain ⟨-, ha⟩ := (registersInRange_absorbing hm).1 hreg
  refine ⟨_, exec_expand_of_absorbing hm, requests_length s.width, ?_⟩
  rw [expandLanes_eq, expandBatches_eq_of_lt ha, batchTrace]

/-! ## The layout -/

/-- Settles O26: the layout reaches every buffer word and no word twice, and the lane view reads through
it. -/
theorem layoutIsBijection : Obligations.LayoutIsBijection := by
  refine ⟨fun _ _ => ⟨rfl, rfl, rfl⟩, fun W p hp => ?_, fun W j w hj hw => wordIndex_lt W hj hw,
    fun W m j b _ hb => lane_byte W m j hb⟩
  obtain ⟨j, hj, w, hw, rfl⟩ := wordIndex_surj W hp
  exact ⟨j, w, ⟨hj, hw, rfl⟩, fun j' w' hj' hw' h => wordIndex_inj W hj' hw' hj hw h⟩

/-- Settles O38: at width 8 the address arithmetic of R57 undoes itself; at every width an offset below
1344 names a lane byte, and the layout is injective on those. -/
theorem width8ReadsDirectly : Obligations.Width8ReadsDirectly := by
  have hbyte : ∀ c, c < 1344 → canonicalByte c < 200 := fun c hc => by
    unfold canonicalByte; omega
  refine ⟨fun c => ?_, fun W c hc => byteAddr_lt W (canonicalLane_lt c) (hbyte c hc),
    fun W c c' hc hc' h => ?_⟩
  · rw [canonicalAddr_eq, wordIndex]
    omega
  · obtain ⟨hlane, hb⟩ := byteAddr_inj W (canonicalLane_lt c) (hbyte c hc) (canonicalLane_lt c')
      (hbyte c' hc') h
    unfold canonicalLane at hlane
    unfold canonicalByte at hb
    omega

/-! ## PERMALL and its requests -/

/-- A request of one `PermuteAllLanes()` has the build's width, and holds lanes there are
(42_permutation_scheduler.md R143). -/
theorem mem_requests {W : VectorWidth} {q : Preq} (h : q ∈ requests W) :
    q.width = W ∧ q.base % W.lanes = 0 ∧ q.base + W.lanes ≤ 8 := by
  obtain ⟨g, hg, rfl⟩ := List.mem_map.1 h
  have hg : g < 8 / W.lanes := List.mem_range.1 hg
  refine ⟨rfl, Nat.mul_mod_left _ _, ?_⟩
  cases W <;> simp only [VectorWidth.lanes] at hg ⊢ <;> omega

/-- Settles O28: the descriptors are those of the list of requests, whose lanes are the ones each
permutes. -/
theorem permallIssuesRequests : Obligations.PermallIssuesRequests := by
  refine ⟨fun s => ⟨_, exec_permall s, ?_⟩, fun W q m j hq hj => ?_⟩
  · rw [permuteAllLanes_eq]
    cases s.width <;> rfl
  · obtain ⟨rfl, hbase, hle⟩ := mem_requests hq
    exact lane_permuteRequest q.width m hbase hle hj

/-- Word `w` of the `k`-th state of a request's region is word `w` of lane `BASE + k` (R144). -/
theorem byteAddr_of_region (W : VectorWidth) {base k : Nat} (hb : base % W.lanes = 0)
    (hle : base + W.lanes ≤ 8) (hk : k < W.lanes) (b : Nat) :
    byteAddr W (base + k) b = 200 * base + 8 * (W.lanes * (b / 8) + k) + b % 8 := by
  cases W <;> simp only [VectorWidth.lanes, byteAddr, wordIndex] at * <;> omega

/-- Settles O29: outside the region nothing is written; inside it, the region's states are the lanes of
the request, each permuted. -/
theorem requestTouchesItsRegion : Obligations.RequestTouchesItsRegion := by
  intro q m hq
  obtain ⟨hbase, hle⟩ := (Preq.wellFormed_iff q).1 hq
  refine ⟨fun a ha => permuteRequest_read_outside q m hle ha, fun k b hk hb => ?_⟩
  have hin : q.base ≤ q.base + k ∧ q.base + k < q.base + q.width.lanes := by omega
  have hj : q.base + k < 8 := by omega
  rw [← byteAddr_of_region q.width hbase hle hk b, ← laneByte, ← lane_byte _ _ _ hb,
    lane_permuteRequest q.width m hbase hle hj, if_pos hin]

end Sys2Proof

/-! SUPPORT. The proofs of the statements on one `SQUEEZE` and on sequences of them
(43_parallel_squeeze.md). -/

namespace Sys2Proof

open Sys2Proof.Machine

/-! ## What a `SQUEEZE` starts from -/

theorem expandIfAbsorbing_of_squeezing {s : State} (hm : s.mode = .squeezing) :
    expandIfAbsorbing s = s := if_pos ((squeezingBegun_iff s).2 hm)

theorem expandIfAbsorbing_of_absorbing {s : State} (hm : s.mode = .absorbing) :
    expandIfAbsorbing s = expandLanes s := by
  rw [expandIfAbsorbing, if_neg (by simp [squeezingBegun_iff, hm])]

/-- `EXPAND`, where a `SQUEEZE` runs it, writes the buffer, the trace, `cursor` and `mode`. -/
theorem expandIfAbsorbing_frame (s : State) :
    expandIfAbsorbing s =
      { s with
        buffer := (expandIfAbsorbing s).buffer, trace := (expandIfAbsorbing s).trace,
        cursor := (expandIfAbsorbing s).cursor, mode := .squeezing } := by
  rcases expandIfAbsorbing_cases s with ⟨hm, e⟩ | ⟨_, e⟩ <;> rw [e]
  · rw [← hm]
  · rw [expandLanes_eq]

@[simp] theorem expandIfAbsorbing_valid (s : State) : (expandIfAbsorbing s).valid = s.valid := by
  rw [expandIfAbsorbing_frame]

@[simp] theorem expandIfAbsorbing_outbox (s : State) :
    (expandIfAbsorbing s).outbox = s.outbox := by rw [expandIfAbsorbing_frame]

@[simp] theorem expandIfAbsorbing_rate (s : State) : (expandIfAbsorbing s).rate = s.rate := by
  rw [expandIfAbsorbing_frame]

@[simp] theorem expandIfAbsorbing_width (s : State) : (expandIfAbsorbing s).width = s.width := by
  rw [expandIfAbsorbing_frame]

/-- A `SQUEEZE` that passes its checks is one from the expanded state (R161). -/
theorem exec_squeeze_expandIfAbsorbing {s : State} {n : BitVec 28} (hv : s.valid = true)
    (hn : n.toNat % 64 = 0) :
    exec (.squeeze n) (expandIfAbsorbing s) = exec (.squeeze n) s := by
  have hv' : (expandIfAbsorbing s).valid = true := by rw [expandIfAbsorbing_valid, hv]
  rw [exec_squeeze_of_aligned hv hn, exec_squeeze_of_aligned hv' hn,
    expandIfAbsorbing_of_squeezing (expandIfAbsorbing_mode s)]

/-- Settles O33: in Absorbing mode the expanded state is the one `EXPAND` leaves. -/
theorem firstSqueezeExpands : Obligations.FirstSqueezeExpands := by
  intro s n hv hn hm
  have hexpand := expandIfAbsorbing_of_absorbing hm
  refine ⟨expandLanes s, _, exec_expand_of_absorbing hm, by rw [expandLanes_frame],
    by rw [expandLanes_frame]; exact hv, expandLanes_inRange hm, exec_squeeze_of_aligned hv hn, ?_⟩
  rw [← hexpand, exec_squeeze_expandIfAbsorbing hv hn, exec_squeeze_of_aligned hv hn]
  rfl

/-! ## Delivery: what it does not read, and its first pass -/

/-- Delivery reads neither `apos` nor `S` nor the responses, and keeps the three. -/
theorem deliver_with_apos_S_outbox (n : Nat) (s : State) (a : BitVec 8) (v : PState)
    (o : List Response) :
    deliver n { s with apos := a, S := v, outbox := o } =
      ((deliver n s).1, { (deliver n s).2 with apos := a, S := v, outbox := o }) := by
  have key : ∀ (fuel n : Nat) (s : State),
      deliverLoop fuel n { s with apos := a, S := v, outbox := o } =
        ((deliverLoop fuel n s).1,
          { (deliverLoop fuel n s).2 with apos := a, S := v, outbox := o }) := by
    intro fuel
    induction fuel with
    | zero => intro n s; rfl
    | succ fuel ih =>
      intro n s
      have hrefill : refill { s with apos := a, S := v, outbox := o } =
          { refill s with apos := a, S := v, outbox := o } := by
        rw [refill_eq, refill_eq]
        dsimp only
        split <;> rfl
      have hpass : ∀ u : State, passLength { u with apos := a, S := v, outbox := o } n =
          passLength u n := fun _ => rfl
      have hadvance : ∀ (u : State) (d : Nat),
          advance { u with apos := a, S := v, outbox := o } d =
            { advance u d with apos := a, S := v, outbox := o } := fun _ _ => rfl
      rw [deliverLoop, deliverLoop]
      split
      · rfl
      · dsimp only
        rw [hrefill, hpass, hadvance, ih]
        rfl
  exact key n n s

theorem deliver_respond (n : Nat) (s : State) (e : Status) (out : List Byte) :
    deliver n (s.respond e out) = ((deliver n s).1, (deliver n s).2.respond e out) := by
  have h := deliver_with_apos_S_outbox n s s.apos s.S (s.outbox ++ [⟨e, out⟩])
  have hframe := deliverLoop_frame n n s
  rw [State.respond, h]
  unfold deliver
  rw [hframe]
  rfl

theorem deliver_zero (s : State) : deliver 0 s = ([], s) := rfl

/-- The sequencer writes the buffer, `cursor` and the trace, and nothing else (R164). -/
theorem refill_frame (s : State) :
    refill s =
      { s with
        buffer := (refill s).buffer, cursor := (refill s).cursor, trace := (refill s).trace } := by
  rw [refill_eq]
  split <;> rfl

@[simp] theorem refill_rate (s : State) : (refill s).rate = s.rate := by rw [refill_frame]

/-- Once a super-block has been replaced, the new one is not exhausted (R164). -/
theorem refill_refill {s : State} (h0 : 0 < s.rate.toNat) : refill (refill s) = refill s := by
  by_cases hfull : s.cursor.toNat = 8 * s.rate.toNat
  · have hcur : (refill s).cursor.toNat = 0 := by
      rw [refill_eq, if_pos hfull]
      rfl
    rw [refill_eq (refill s), if_neg (by rw [hcur, refill_rate]; omega)]
  · rw [refill_eq s, if_neg hfull, refill_eq s, if_neg hfull]

/-- A delivery of at least one byte begins at the sequencer (R164). -/
theorem deliver_refill {s : State} {n : Nat} (hn : 0 < n) (h0 : 0 < s.rate.toNat) :
    deliver n (refill s) = deliver n s := by
  obtain ⟨n, rfl⟩ : ∃ k, n = k + 1 := ⟨n - 1, by omega⟩
  rw [deliver, deliver, deliverLoop, deliverLoop, if_neg n.succ_ne_zero, if_neg n.succ_ne_zero,
    refill_refill h0]

/-- A `SQUEEZE` of at least one byte is the same one after the sequencer (R164). -/
theorem exec_squeeze_refill {s : State} {n : BitVec 28} (hv : s.valid = true)
    (hn : n.toNat % 64 = 0) (hm : s.mode = .squeezing) (hpos : 0 < n.toNat)
    (h0 : 0 < s.rate.toNat) : exec (.squeeze n) (refill s) = exec (.squeeze n) s := by
  have hv' : (refill s).valid = true := by rw [refill_frame]; exact hv
  have hm' : (refill s).mode = .squeezing := by rw [refill_frame]; exact hm
  rw [exec_squeeze_of_squeezing hv' hn hm', exec_squeeze_of_squeezing hv hn hm,
    deliver_refill hpos h0]

/-- A delivery that ends inside the current super-block is one pass, whatever the rate (R163, R165). -/
theorem deliver_of_one_pass {s : State} {n : Nat} (hlt : s.cursor.toNat < 8 * s.rate.toNat)
    (hfit : s.cursor.toNat + n ≤ 8 * s.rate.toNat) :
    deliver n s = (serialize s n, advance s n) := by
  cases n with
  | zero =>
    have hcur : (advance s 0).cursor = s.cursor := by
      rw [advance_cursor, Nat.add_zero, if_pos s.cursor.isLt, BitVec.ofNat_toNat,
        BitVec.setWidth_eq]
    have hadvance : advance s 0 = { s with cursor := (advance s 0).cursor } := rfl
    rw [hadvance, hcur]
    rfl
  | succ n =>
    have hpass : passLength s (n + 1) = n + 1 := by
      rw [passLength, available, if_pos hlt]
      omega
    have hdone : ∀ t, deliverLoop n 0 t = ([], t) := fun t => by cases n <;> rfl
    rw [deliver, deliverLoop, if_neg (by omega), refill_eq, if_neg (by omega)]
    simp only [hpass, Nat.sub_self, hdone, List.append_nil]

/-! ## One `SQUEEZE` -/

theorem deliver_length (n : Nat) (s : State) : (deliver n s).1.length = n :=
  deliverLoop_length n n s (le_refl n)

/-- Delivery writes the buffer, `cursor` and the trace, and nothing else (R160). -/
theorem deliver_frame (n : Nat) (s : State) :
    (deliver n s).2 =
      { s with
        buffer := (deliver n s).2.buffer, cursor := (deliver n s).2.cursor,
        trace := (deliver n s).2.trace } := deliverLoop_frame n n s

/-- Byte `k` of a delivery (R163, R166). -/
theorem deliver_getElem? {s : State} {n k : Nat} (hm : s.mode = .squeezing)
    (hreg : registersInRange s = true) (hk : k < n) :
    (deliver n s).1[k]? = some (upcomingByte s (s.cursor.toNat + k)) := by
  rw [deliver_eq_of_inRange n hm hreg]
  simp [hk]

/-- The cursor after a delivery (R172). -/
theorem deliver_cursor {s : State} (hm : s.mode = .squeezing) (hreg : registersInRange s = true)
    (n : Nat) : (deliver n s).2.cursor.toNat = cursorAfter s n := by
  rw [deliver_eq_of_inRange n hm hreg, BitVec.toNat_ofNat,
    Nat.mod_eq_of_lt (cursorAfter_le hm hreg n).2]

/-- The canonical order of R166, with the two divisions by 8 taken together. -/
theorem canonicalByte_eq (c : Nat) : canonicalByte c = 8 * (c / 64) + c % 8 := by
  rw [canonicalByte, Nat.div_div_eq_div_mul]

/-- Settles O32: delivery in closed form, read off byte by byte and lane by lane. -/
theorem squeezeDeliversStream : Obligations.SqueezeDeliversStream := by
  intro s n hv hn hm hreg
  refine ⟨_, (deliver n.toNat s).1, exec_squeeze_of_squeezing hv hn hm, deliver_length _ s,
    fun k hk => ?_, fun j hj => ?_, ?_⟩
  · rw [deliver_getElem? hm hreg hk, upcomingByte, canonicalByte_eq, canonicalLane]
  · rw [deliver_eq_of_inRange _ hm hreg]
    exact lane_iterate_permutedBuffer s.width s.buffer _ hj
  · rw [deliver_frame]
    rfl

/-- Settles O34: the batches are those of the `EXPAND` this `SQUEEZE` runs, if it runs one, and the
re-permutations of the delivery after it. -/
theorem squeezeCountsRepermutations : Obligations.SqueezeCountsRepermutations := by
  intro s n hv hn hreg T c e
  have hreg' := expandIfAbsorbing_inRange hreg
  have hmode := expandIfAbsorbing_mode s
  have hstart : (expandIfAbsorbing s).cursor.toNat = c ∧
      (expandIfAbsorbing s).trace = s.trace ++ batchTrace s.width e := by
    rcases expandIfAbsorbing_cases s with ⟨hm, h⟩ | ⟨hm, h⟩
    · rw [h]
      simp [c, e, hm]
    · obtain ⟨-, ha⟩ := (registersInRange_absorbing hm).1 hreg
      rw [h, expandLanes_eq]
      simp [c, e, hm, expandBatches_eq_of_lt ha]
  have hcur := deliver_cursor hmode hreg' n.toNat
  refine ⟨_, exec_squeeze_of_aligned hv hn, ?_, ?_, ?_⟩
  · rw [deliver_expandIfAbsorbing_frame]
    rfl
  · rw [State.respond_cursor, hcur, cursorAfter, hstart.1, expandIfAbsorbing_rate]
  · rw [deliver_eq_of_inRange _ hmode hreg', State.respond_trace]
    simp only [hstart.2, expandIfAbsorbing_width, refillsFor, hstart.1, expandIfAbsorbing_rate]
    rw [List.append_assoc, ← batchTrace_add]
    rfl

/-- Settles O35: the sequencer runs before the first byte of a pass, so the end of a super-block is seen
by the next `SQUEEZE` only, which is then one from the permuted lanes and cursor 0. -/
theorem repermutationIsLazy : Obligations.RepermutationIsLazy := by
  constructor
  · intro s n hv hm hreg hn h0 hend
    refine ⟨_, exec_squeeze_of_fits hv hn hm hreg (by omega), ?_, rfl, rfl⟩
    have hlast : cursorAfter s n.toNat = 8 * s.rate.toNat := by
      rw [cursorAfter, if_neg (by omega), hend, Nat.mod_eq_of_lt (by omega)]
      omega
    have hle := (cursorAfter_le hm hreg n.toNat).2
    simp only [hlast, BitVec.toNat_ofNat] at hle ⊢
    exact Nat.mod_eq_of_lt hle
  · intro s n hv hm hreg hn h0 hle hfull
    obtain ⟨hr, hrate, -⟩ := (registersInRange_squeezing hm).1 hreg
    have hrefill : refill s = { permuteAllLanes s with cursor := 0#11 } := if_pos hfull
    have hcur : (refill s).cursor.toNat = 0 := by rw [hrefill]; rfl
    have hpass : deliver n.toNat s = (serialize (refill s) n.toNat, advance (refill s) n.toNat) := by
      rw [← deliver_refill h0 hrate]
      exact deliver_of_one_pass (by rw [hcur, refill_rate]; omega)
        (by rw [hcur, refill_rate]; omega)
    have hrun := exec_squeeze_of_squeezing hv hn hm
    refine ⟨permuteAllLanes s, _, _, exec_permall s, hrun, ?_, rfl, ?_, ?_⟩
    · rw [← hrefill, exec_squeeze_refill hv hn hm h0 hrate, hrun]
      rfl
    · have hlast : 8 * s.rate.toNat + n.toNat - 1 = n.toNat - 1 + 8 * s.rate.toNat := by omega
      rw [State.respond_cursor, deliver_cursor hm hreg, cursorAfter, if_neg (by omega), hfull, hlast,
        Nat.add_mod_right, Nat.mod_eq_of_lt (by omega)]
      omega
    · rw [hpass, State.respond_buffer, advance_buffer, hrefill]

/-- Settles O36: a delivery of 0 bytes makes no pass. -/
theorem squeezeZeroExpandsOnly : Obligations.SqueezeZeroExpandsOnly := by
  refine ⟨fun s hv hm => exec_squeeze_of_squeezing hv rfl hm, fun s hv hm => ?_⟩
  refine ⟨expandLanes s, exec_expand_of_absorbing hm, by rw [expandLanes_frame],
    by rw [expandLanes_frame], ?_, fun data => ?_⟩
  · rw [exec_squeeze_of_aligned hv rfl, expandIfAbsorbing_of_absorbing hm]
    show Host.Outcome.next ((expandLanes s).respond .ok []) = _
    rw [expandLanes_eq]
    rfl
  · rw [updateRejectedOutsideAbsorbing _ data (.inr (by rw [expandLanes_frame]))]
    simp

/-- Settles O39: inside the super-block each byte delivered is a lane byte below the rate, which is a
multiple of 8. -/
theorem capacityNeverDelivered : Obligations.CapacityNeverDelivered := by
  intro s s' n hv hv' hm hm' hreg hlegal hrate hcur hn hfit hlanes
  obtain ⟨hr, h0, hc⟩ := (registersInRange_squeezing hm).1 hreg
  have hreg' : registersInRange s' = true := by
    rw [registersInRange_squeezing hm', ← hrate, ← hcur]
    exact ⟨hr, h0, hc⟩
  have h8 : s.rate.toNat % 8 = 0 := by rcases hlegal with h | h <;> rw [h] <;> rfl
  have hout : serialize s' n.toNat = serialize s n.toNat := by
    apply List.map_congr_left
    intro t ht
    have hlt : s.cursor.toNat + t < 8 * s.rate.toNat := by
      have := List.mem_range.1 ht
      omega
    rw [← hcur, sbByte_of_lt s hr hlt, sbByte_of_lt s' (hrate ▸ hr) (hrate ▸ hlt),
      hlanes _ (canonicalLane_lt _) _ (canonicalByte_lt hlt h8)]
  have hrun := exec_squeeze_of_fits hv hn hm hreg hfit
  have hrun' := exec_squeeze_of_fits hv' hn hm' hreg' (by rw [← hcur, ← hrate]; exact hfit)
  exact ⟨_, _, serialize s n.toNat, hrun, hrun', rfl, by rw [hout]⟩

/-- Settles O41: past its checks a `SQUEEZE` leaves Squeezing mode, which `UPDATE` rejects; one of a
misaligned length leaves everything but its response. -/
theorem updateAfterSqueezeRejected : Obligations.UpdateAfterSqueezeRejected := by
  constructor
  · intro s n data hv hn
    refine ⟨_, exec_squeeze_of_aligned hv hn, updateRejectedOutsideAbsorbing _ data (.inr ?_)⟩
    rw [deliver_expandIfAbsorbing_frame]
    rfl
  · intro s n data hv hm hn
    refine ⟨_, _, squeezeRejectsMisalignedLength s n hv hn, hm,
      exec_update_of_absorbing data hv hm, ?_⟩
    rw [absorb_eq]
    simp

/-! ## Sequences of `SQUEEZE`s -/

/-- Delivery keeps the mode and the registers' range. -/
theorem deliver_inRange {s : State} (hm : s.mode = .squeezing) (hreg : registersInRange s = true)
    (n : Nat) :
    (deliver n s).2.mode = .squeezing ∧ registersInRange (deliver n s).2 = true := by
  obtain ⟨hr, h0, -⟩ := (registersInRange_squeezing hm).1 hreg
  have hm' : (deliver n s).2.mode = .squeezing := by rw [deliver_frame]; exact hm
  have hrate : (deliver n s).2.rate = s.rate := by rw [deliver_frame]
  refine ⟨hm', (registersInRange_squeezing hm').2 ?_⟩
  rw [hrate, deliver_cursor hm hreg]
  exact ⟨hr, h0, (cursorAfter_le hm hreg n).1⟩

/-- Re-permutations and cursor after a delivery together count the bytes since the start of the
super-block it began in (R172). -/
theorem refillsFor_cursorAfter (s : State) (n : Nat) :
    8 * s.rate.toNat * refillsFor s n + cursorAfter s n = s.cursor.toNat + n := by
  unfold refillsFor cursorAfter
  split
  next h => rw [h, Nat.mul_zero, Nat.zero_add, Nat.add_zero]
  next h =>
    have := Nat.div_add_mod (s.cursor.toNat + n - 1) (8 * s.rate.toNat)
    omega

section
variable {s : State} (hm : s.mode = .squeezing) (hreg : registersInRange s = true)
include hm hreg

/-- The bytes before a delivery's end state are those of its start, counted on past it (R166). -/
theorem upcomingByte_deliver (a t : Nat) :
    upcomingByte (deliver a s).2 ((deliver a s).2.cursor.toNat + t) =
      upcomingByte s (s.cursor.toNat + a + t) := by
  obtain ⟨-, h0, -⟩ := (registersInRange_squeezing hm).1 hreg
  have hpos : s.cursor.toNat + a + t =
      cursorAfter s a + t + 8 * s.rate.toNat * refillsFor s a := by
    rw [← refillsFor_cursorAfter s a]
    omega
  rw [deliver_cursor hm hreg, deliver_eq_of_inRange a hm hreg, hpos]
  unfold upcomingByte
  dsimp only
  rw [lane_iterate_permutedBuffer _ _ _ (canonicalLane_lt _), ← Function.iterate_add_apply,
    Nat.add_mul_mod_self_left, Nat.add_mul_div_left _ _ (by omega)]

/-- A delivery of `a + b` bytes re-permutes as often as one of `a` and then one of `b`, and leaves the
same cursor (R172). -/
theorem counts_add (a b : Nat) :
    refillsFor s (a + b) = refillsFor s a + refillsFor (deliver a s).2 b ∧
      cursorAfter s (a + b) = cursorAfter (deliver a s).2 b := by
  obtain ⟨-, h0, -⟩ := (registersInRange_squeezing hm).1 hreg
  have hcur := deliver_cursor hm hreg a
  have hrate : (deliver a s).2.rate = s.rate := by rw [deliver_frame]
  by_cases hb : b = 0
  · subst hb
    refine ⟨rfl, ?_⟩
    rw [Nat.add_zero, ← hcur]
    rfl
  · have hpos := refillsFor_cursorAfter s a
    have hlast : s.cursor.toNat + (a + b) - 1 =
        cursorAfter s a + b - 1 + 8 * s.rate.toNat * refillsFor s a := by omega
    rw [refillsFor, cursorAfter, if_neg (by omega), if_neg (by omega), hlast,
      refillsFor.eq_1 (deliver a s).2, cursorAfter.eq_1 (deliver a s).2, if_neg hb, if_neg hb, hcur,
      hrate, Nat.add_mul_mod_self_left, Nat.add_mul_div_left _ _ (by omega)]
    omega

/-- Delivering `a + b` bytes is delivering `a` and then `b` (R170). -/
theorem deliver_add (a b : Nat) :
    deliver (a + b) s =
      ((deliver a s).1 ++ (deliver b (deliver a s).2).1, (deliver b (deliver a s).2).2) := by
  obtain ⟨hm', hreg'⟩ := deliver_inRange hm hreg a
  obtain ⟨hrefills, hcursor⟩ := counts_add hm hreg a b
  have hup := upcomingByte_deliver hm hreg a
  have hmid := deliver_eq_of_inRange a hm hreg
  rw [deliver_eq_of_inRange (a + b) hm hreg, deliver_eq_of_inRange b hm' hreg', hrefills, hcursor]
  refine Prod.ext ?_ ?_
  · simp only [hup]
    rw [hmid, List.range_add, List.map_append, List.map_map]
    simp [Function.comp_def, Nat.add_assoc]
  · generalize refillsFor (deliver a s).2 b = k
    generalize cursorAfter (deliver a s).2 b = c
    rw [hmid]
    dsimp only
    rw [batchTrace_add, List.append_assoc, Nat.add_comm _ k, Function.iterate_add_apply]

end

/-- Aligned `SQUEEZE`s from Squeezing mode deliver the bytes of one delivery of the total length, cut
into their lengths, and leave its state but for the responses. -/
theorem execAll_squeezes (lengths : List (BitVec 28)) {s : State} (hv : s.valid = true)
    (hm : s.mode = .squeezing) (hreg : registersInRange s = true)
    (hn : ∀ n ∈ lengths, n.toNat % 64 = 0) :
    ∃ responses, execAll (lengths.map Instr.squeeze) s =
        .next { (deliver (lengths.map BitVec.toNat).sum s).2 with
          outbox := s.outbox ++ responses } ∧
      (∀ r ∈ responses, r.status = .ok) ∧
      responses.map (fun r => r.payload.length) = lengths.map BitVec.toNat ∧
      payloads responses = (deliver (lengths.map BitVec.toNat).sum s).1 := by
  induction lengths generalizing s with
  | nil => exact ⟨[], by simp [execAll, deliver_zero], by simp, rfl, rfl⟩
  | cons n rest ih =>
    obtain ⟨hm', hreg'⟩ := deliver_inRange hm hreg n.toNat
    have hv' : (deliver n.toNat s).2.valid = true := by rw [deliver_frame]; exact hv
    have hbox : (deliver n.toNat s).2.outbox = s.outbox := by rw [deliver_frame]
    have hhead := exec_squeeze_of_squeezing hv (hn n List.mem_cons_self) hm
    obtain ⟨responses, hrun, hok, hlen, hout⟩ := ih
      (s := (deliver n.toNat s).2.respond .ok (deliver n.toNat s).1) hv' hm' hreg'
      fun k hk => hn k (List.mem_cons_of_mem n hk)
    rw [deliver_respond] at hrun hout
    rw [List.map_cons, List.map_cons, List.sum_cons, deliver_add hm hreg]
    refine ⟨⟨.ok, (deliver n.toNat s).1⟩ :: responses, ?_, ?_, ?_, ?_⟩
    · rw [execAll, hhead, finish]
      dsimp only
      rw [hrun]
      simp [State.respond, hbox]
    · simpa using hok
    · rw [List.map_cons, hlen, deliver_length]
    · rw [← hout]
      simp [payloads]

/-- The same from either mode, where there is a first `SQUEEZE` to run `EXPAND` (R161). -/
theorem execAll_squeezes_of_ne_nil {lengths : List (BitVec 28)} {s : State} (hne : lengths ≠ [])
    (hv : s.valid = true) (hreg : registersInRange s = true)
    (hn : ∀ n ∈ lengths, n.toNat % 64 = 0) :
    ∃ responses, execAll (lengths.map Instr.squeeze) s =
        .next { (deliver (lengths.map BitVec.toNat).sum (expandIfAbsorbing s)).2 with
          outbox := s.outbox ++ responses } ∧
      (∀ r ∈ responses, r.status = .ok) ∧
      responses.map (fun r => r.payload.length) = lengths.map BitVec.toNat ∧
      payloads responses =
        (deliver (lengths.map BitVec.toNat).sum (expandIfAbsorbing s)).1 := by
  have hexpand : execAll (lengths.map Instr.squeeze) (expandIfAbsorbing s) =
      execAll (lengths.map Instr.squeeze) s := by
    obtain ⟨n, rest, rfl⟩ := List.exists_cons_of_ne_nil hne
    rw [List.map_cons, execAll, execAll,
      exec_squeeze_expandIfAbsorbing hv (hn n List.mem_cons_self)]
  have h := execAll_squeezes lengths ((expandIfAbsorbing_valid s).trans hv)
    (expandIfAbsorbing_mode s) (expandIfAbsorbing_inRange hreg) hn
  rwa [hexpand, expandIfAbsorbing_outbox] at h

/-- Settles O40: a sequence and one call of the total length are the same delivery from the same
expanded state. -/
theorem squeezeComposes : Obligations.SqueezeComposes := by
  intro s lengths total hv hreg hne hn htotal
  have htotal64 : total.toNat % 64 = 0 := by
    rw [← htotal]
    refine Nat.mod_eq_zero_of_dvd (List.dvd_sum fun x hx => ?_)
    obtain ⟨n, hmem, rfl⟩ := List.mem_map.1 hx
    exact Nat.dvd_of_mod_eq_zero (hn n hmem)
  obtain ⟨responses, hrun, hok, hlen, hout⟩ := execAll_squeezes_of_ne_nil hne hv hreg hn
  rw [htotal] at hrun hout
  have hbox : (deliver total.toNat (expandIfAbsorbing s)).2.outbox = s.outbox := by
    rw [deliver_expandIfAbsorbing_frame]
  exact ⟨_, _, responses, _, hrun, exec_squeeze_of_aligned hv htotal64, rfl,
    by rw [State.respond_outbox, hbox], hok, hlen, hout, rfl⟩

end Sys2Proof

/-! SUPPORT. The proofs of the statements on every instruction and every step: who writes what, the
invariants, no stop, one response (10_state.md, 30_encoding.md, 60_exceptions.md). -/

namespace Sys2Proof

open Sys2Proof.Machine

/-! ## The effect of an instruction, said once -/

/-- The state `t` an instruction leaves from `s`: an error and its response, or the effect of the
instruction where it runs. -/
inductive Effect (s : State) : Instr → State → Prop
  | failed (i : Instr) {e : Status} (he : e ≠ .ok) : Effect s i (s.respond e [])
  | created (l : Level) :
      Effect s (initInstr l) ((createInstance (initRate l) s).respond .ok [])
  | absorbed (data : List Byte) (hv : s.valid = true) (hm : s.mode = .absorbing) :
      Effect s (.update data) ((absorb data s).respond .ok [])
  | delivered (n : BitVec 28) (hv : s.valid = true) (hn : n.toNat % 64 = 0) :
      Effect s (.squeeze n) ((deliver n.toNat (expandIfAbsorbing s)).2.respond .ok
        (deliver n.toNat (expandIfAbsorbing s)).1)
  | marked : Effect s .finalize s
  | expanded (hm : s.mode = .absorbing) : Effect s .expand (expandLanes s)
  | permuted : Effect s .permall (permuteAllLanes s)

/-- Every instruction completes, in every state, with its effect. -/
theorem exec_completes (i : Instr) (s : State) : ∃ t, exec i s = .next t ∧ Effect s i t := by
  cases i with
  | init128 => exact ⟨_, rfl, .created .l128⟩
  | init256 => exact ⟨_, rfl, .created .l256⟩
  | update data =>
    rcases execUpdate_cases data s with ⟨_, hraise⟩ | ⟨hv, hm, hfinish⟩
    · exact ⟨_, hraise, .failed _ (by decide)⟩
    · exact ⟨_, hfinish, .absorbed data hv hm⟩
  | squeeze n =>
    rcases execSqueeze_cases n s with ⟨_, hraise⟩ | ⟨_, _, hraise⟩ | ⟨hv, hn, hfinish⟩
    · exact ⟨_, hraise, .failed _ (by decide)⟩
    · exact ⟨_, hraise, .failed _ (by decide)⟩
    · exact ⟨_, hfinish, .delivered n hv hn⟩
  | finalize => exact ⟨s, rfl, .marked⟩
  | expand =>
    rcases execExpand_cases s with ⟨_, hraise⟩ | ⟨hm, hnext⟩
    · exact ⟨_, hraise, .failed _ (by decide)⟩
    · exact ⟨_, hnext, .expanded hm⟩
  | permall => exact ⟨_, exec_permall s, .permuted⟩

theorem effect_of_exec {i : Instr} {s t : State} (h : exec i s = .next t) : Effect s i t := by
  obtain ⟨u, hu, heffect⟩ := exec_completes i s
  cases hu.symm.trans h
  exact heffect

/-! ## Which instruction writes which element -/

/-- Settles O48: each effect's own frame. -/
theorem writersOfEachElement : Obligations.WritersOfEachElement := by
  intro i s t h
  cases effect_of_exec h with
  | failed => simp
  | created l => cases l <;> simp [initInstr]
  | absorbed data => rw [absorb_eq]; simp
  | delivered n => rw [deliver_expandIfAbsorbing_frame]; simp
  | marked => simp
  | expanded => rw [expandLanes_frame]; simp
  | permuted => rw [permuteAllLanes_frame]; simp

/-- Settles O47: of the effects only creation writes `valid`, and only creation leaves the mode
Absorbing where it was not. -/
theorem onlyInitLeavesSqueezing : Obligations.OnlyInitLeavesSqueezing := by
  intro i s t h
  cases effect_of_exec h with
  | failed => simp +contextual
  | created l => cases l <;> simp [initInstr]
  | absorbed data => rw [absorb_eq]; simp +contextual
  | delivered n => rw [deliver_expandIfAbsorbing_frame]; simp +contextual
  | marked => simp +contextual
  | expanded => rw [expandLanes_frame]; simp +contextual
  | permuted => rw [permuteAllLanes_frame]; simp +contextual

/-- What a response carries is what the command ended with (30_encoding.md R80). -/
theorem payload_of_respond {s u : State} {e : Status} {out : List Byte} {r : Response}
    (hu : u.outbox = s.outbox) (hbox : (u.respond e out).outbox = s.outbox ++ [r]) :
    r.payload = out := by
  rw [State.respond_outbox, hu] at hbox
  cases List.append_cancel_left hbox
  rfl

/-- Settles O49: the other effects respond with no payload or not at all, and delivery ends in Squeezing
mode. -/
theorem noOutputWhileAbsorbing : Obligations.NoOutputWhileAbsorbing := by
  intro i s t r h hbox hr
  cases effect_of_exec h with
  | failed => exact absurd (payload_of_respond rfl hbox) hr
  | created l => exact absurd (payload_of_respond (createInstance_outbox _ s) hbox) hr
  | absorbed data => exact absurd (payload_of_respond (by rw [absorb_eq]) hbox) hr
  | delivered n hv hn =>
    rw [deliver_expandIfAbsorbing_frame]
    exact ⟨⟨n, rfl⟩, rfl, hv⟩
  | marked => simp at hbox
  | expanded => rw [expandLanes_frame] at hbox; simp at hbox
  | permuted => rw [permuteAllLanes_frame] at hbox; simp at hbox

/-! ## One response -/

/-- The length of the output an instruction asks for (43_parallel_squeeze.md R160). -/
def requestedLength : Instr → Nat
  | .squeeze n => n.toNat
  | _ => 0

/-- It is what the command word's `ARG` announces, where its `OP` is `SQUEEZE`'s (30_encoding.md R83). -/
theorem requestedLength_of_decode {t : Transaction} {i : Instr} (h : decode t = .ok i) :
    requestedLength i = if t.word.toNat / 2 ^ 28 = 4 then t.word.toNat % 2 ^ 28 else 0 := by
  rw [← opField_toNat, ← argField_toNat]
  rcases decode_ok_cases h with ⟨hop, -, rfl⟩ | ⟨hop, -, rfl⟩ | ⟨hop, rfl⟩ | ⟨hop, rfl⟩ <;>
    rw [hop] <;> rfl

/-- A host command returns one response, with the requested bytes if it succeeds and none if it fails
(60_exceptions.md R244). -/
theorem Effect.one_response {s t : State} {i : Instr} (h : Effect s i t)
    (hi : i.hostIssuable = true) :
    ∃ r, t.outbox = s.outbox ++ [r] ∧
      r.payload.length = if r.status = .ok then requestedLength i else 0 := by
  cases h with
  | failed i he => exact ⟨_, rfl, (if_neg he).symm⟩
  | created l => cases l <;> exact ⟨_, rfl, rfl⟩
  | absorbed data => rw [absorb_eq]; exact ⟨_, rfl, rfl⟩
  | delivered n =>
    have hlen := deliver_length n.toNat (expandIfAbsorbing s)
    rw [deliver_expandIfAbsorbing_frame]
    exact ⟨_, rfl, hlen⟩
  | marked => cases hi
  | expanded => cases hi
  | permuted => cases hi

/-- Settles O46: a decoded command's response is that of its effect, an illegal word's is an error, and a
malformed transaction has no next state. -/
theorem oneResponsePerCommand : Obligations.OneResponsePerCommand := by
  intro s t x rest hin h
  rw [step_of_command hin, runTransaction] at h
  split at h
  next i hdec =>
    have heffect := effect_of_exec h
    obtain ⟨r, hbox, hlen⟩ := heffect.one_response (hostIssuable_of_decode_ok hdec)
    obtain ⟨-, -, -, -, -, -, hinbox, -⟩ := writersOfEachElement i _ t h
    refine ⟨r, hbox, hinbox, ?_⟩
    rw [hlen, requestedLength_of_decode hdec, ite_and]
  next => cases h; exact ⟨_, rfl, rfl, rfl⟩
  next => cases h

/-! ## The invariants -/

theorem Inv.rate_cases {s : State} (h : Inv s) (hv : s.valid = true) :
    s.rate.toNat = 168 ∨ s.rate.toNat = 136 := by
  rcases h.rateLegal hv with e | e <;> simp [e]

/-- On an instance the invariants keep the registers in range. -/
theorem Inv.inRange {s : State} (h : Inv s) (hv : s.valid = true) : registersInRange s = true := by
  have hrate := h.rate_cases hv
  cases hm : s.mode with
  | absorbing => exact (registersInRange_absorbing hm).2 ⟨by omega, h.aposInBlock hv⟩
  | squeezing =>
    exact (registersInRange_squeezing hm).2 ⟨by omega, by omega, h.cursorInSuperBlock hv⟩

theorem inv_absorb {s : State} (h : Inv s) (hv : s.valid = true) (hm : s.mode = .absorbing)
    (data : List Byte) : Inv (absorb data s) := by
  obtain ⟨hr, ha⟩ := (registersInRange_absorbing hm).1 (h.inRange hv)
  have hpos := (absorb_sponge data s ha hr).2
  rw [absorb_eq]
  exact { h with aposInBlock := fun _ => hpos }

theorem inv_expandIfAbsorbing {s : State} (h : Inv s) (hv : s.valid = true) :
    Inv (expandIfAbsorbing s) := by
  rcases expandIfAbsorbing_cases s with ⟨_, e⟩ | ⟨_, e⟩ <;> rw [e]
  · exact h
  · rw [expandLanes_eq]
    exact {
      bufferWf := expandedBuffer_wf h.bufferWf
      noInstance := fun hv' => by simp [hv] at hv'
      rateLegal := h.rateLegal
      aposInBlock := h.aposInBlock
      cursorInSuperBlock := fun _ => Nat.zero_le _
      cursorOnRow := fun _ => rfl
      absorbingAtZero := nofun }

/-- An aligned delivery ends on a row of 64 bytes, the super-block being whole rows (R171). -/
theorem cursorAfter_mod {s : State} (hrate : s.rate.toNat = 168 ∨ s.rate.toNat = 136)
    (hcur : s.cursor.toNat % 64 = 0) {n : Nat} (hn : n % 64 = 0) : cursorAfter s n % 64 = 0 := by
  unfold cursorAfter
  split
  · exact hcur
  · rcases hrate with e | e <;> rw [e] <;> omega

theorem inv_deliver {s : State} (h : Inv s) (hv : s.valid = true) (hm : s.mode = .squeezing)
    {n : Nat} (hn : n % 64 = 0) : Inv (deliver n s).2 := by
  have hreg := h.inRange hv
  have hcur := deliver_cursor hm hreg n
  have hwf : Memory.wf (deliver n s).2.buffer := deliverLoop_wf n n h.bufferWf
  rw [deliver_frame]
  exact {
    bufferWf := hwf
    noInstance := fun hv' => by simp [hv] at hv'
    rateLegal := h.rateLegal
    aposInBlock := h.aposInBlock
    cursorInSuperBlock := fun _ => hcur ▸ (cursorAfter_le hm hreg n).1
    cursorOnRow := fun _ => hcur ▸ cursorAfter_mod (h.rate_cases hv) (h.cursorOnRow hv) hn
    absorbingAtZero := fun _ ha => by simp [hm] at ha }

/-- Every host command keeps the invariants. -/
theorem inv_exec {i : Instr} {s t : State} (hs : Inv s) (hi : i.hostIssuable = true)
    (h : exec i s = .next t) : Inv t := by
  cases effect_of_exec h with
  | failed => exact hs.respond _ _
  | created l => exact (inv_createInstance l s).respond _ _
  | absorbed data hv hm => exact (inv_absorb hs hv hm data).respond _ _
  | delivered n hv hn =>
    exact (inv_deliver (inv_expandIfAbsorbing hs hv) ((expandIfAbsorbing_valid s).trans hv)
      (expandIfAbsorbing_mode s) hn).respond _ _
  | marked => cases hi
  | expanded => cases hi
  | permuted => cases hi

theorem inv_powerOnReset (s : State) : Inv (powerOnReset s) where
  bufferWf := unspecifiedBuffer_wf s.width s.resets
  noInstance _ := ⟨rfl, rfl⟩
  rateLegal := nofun
  aposInBlock := nofun
  cursorInSuperBlock := nofun
  cursorOnRow := nofun
  absorbingAtZero := nofun

/-- The invariants do not speak of what the host will present. -/
theorem Inv.withInbox {s : State} (h : Inv s) (rest : List HostInput) :
    Inv { s with inbox := rest } := { h with }

/-- Settles O43: the step runs host commands only, and those keep the invariants; so do an error and a
reset. -/
theorem stepKeepsInvariants : Obligations.StepKeepsInvariants := by
  intro s t hs h
  rcases step_cases s with ⟨_, hwait⟩ | ⟨x, rest, i, _, hdec, hexec⟩ | ⟨x, rest, _, _, hraise⟩ |
    ⟨_, _, _, _, hrefused⟩ | ⟨rest, _, hreset⟩
  · cases hwait.symm.trans h
    exact hs
  · exact inv_exec (hs.withInbox rest) (hostIssuable_of_decode_ok hdec) (hexec.symm.trans h)
  · cases hraise.symm.trans h
    exact (hs.withInbox rest).respond _ _
  · cases hrefused.symm.trans h
  · cases hreset.symm.trans h
    exact inv_powerOnReset _

/-! ## No stop -/

/-- A step on what the host can present ends in a next state, with that input taken. -/
theorem step_completes {s : State}
    (hp : ∀ t rest, s.inbox = .command t :: rest → t.presentable = true) :
    ∃ t, step s = .next t ∧ t.inbox = s.inbox.tail := by
  rcases step_cases s with ⟨hin, hwait⟩ | ⟨x, rest, i, hin, _, hexec⟩ | ⟨x, rest, hin, _, hraise⟩ |
    ⟨x, rest, hin, hdec, _⟩ | ⟨rest, hin, hreset⟩
  · exact ⟨s, hwait, by rw [hin]; rfl⟩
  · obtain ⟨t, ht, -⟩ := exec_completes i { s with inbox := rest }
    obtain ⟨-, -, -, -, -, -, hinbox, -⟩ := writersOfEachElement i _ t ht
    exact ⟨t, hexec.trans ht, by rw [hinbox, hin]; rfl⟩
  · exact ⟨_, hraise, by rw [hin]; rfl⟩
  · exact absurd hdec (decode_ne_malformedPayload (hp x rest hin))
  · exact ⟨_, hreset, by rw [hin]; rfl⟩

/-- Settles O55: every instruction has an effect, and every step one but for what cannot be
presented. -/
theorem noInstructionStops : Obligations.NoInstructionStops := by
  constructor
  · intro i s
    obtain ⟨t, ht, -⟩ := exec_completes i s
    exact ⟨t, ht⟩
  · intro s hp
    obtain ⟨t, ht, -⟩ := step_completes hp
    exact ⟨t, ht⟩

/-- Settles O44: the step completes, keeps the invariants, and takes one input from the channel. -/
theorem engineNeverStops : Obligations.EngineNeverStops := by
  intro s hs hp
  obtain ⟨t, ht, hinbox⟩ := step_completes fun x rest hin => hp x (hin ▸ List.mem_cons_self)
  refine ⟨t, ht, stepKeepsInvariants s t hs ht, fun x hx => hp x ?_, hinbox⟩
  rw [hinbox] at hx
  exact List.mem_of_mem_tail hx

end Sys2Proof

/-! SUPPORT. The proofs of the statements that compare two engines, and of those that compare the engine
with the ideal generator (42_permutation_scheduler.md R145, R149; 44_reference_stream.md). -/

namespace Sys2Proof

open Sys2Proof.Machine

/-! ## Each operation, from equal instances -/

theorem snapshot_absorb (data : List Byte) {s s' : State} (h : snapshot s = snapshot s') :
    snapshot (absorb data s) = snapshot (absorb data s') := by
  induction data generalizing s s' with
  | nil => exact h
  | cons x data ih =>
    refine ih ?_
    obtain ⟨hv, hm, hrate, hcur, hapos, hS, hlanes⟩ := (snapshot_eq_iff s s').1 h
    rw [snapshot_eq_iff]
    unfold absorbByte nextApos
    rw [hrate, hapos, hS]
    split
    · exact ⟨hv, hm, rfl, hcur, rfl, rfl, hlanes⟩
    · exact ⟨hv, hm, rfl, hcur, rfl, rfl, hlanes⟩

theorem snapshot_expandLanes {s s' : State} (h : snapshot s = snapshot s') :
    snapshot (expandLanes s) = snapshot (expandLanes s') := by
  obtain ⟨hv, -, hrate, -, hapos, hS, -⟩ := (snapshot_eq_iff s s').1 h
  have hlane : ∀ j < 8, lane (expandLanes s).width (expandLanes s).buffer j =
      lane (expandLanes s').width (expandLanes s').buffer j := fun j hj => by
    rw [lane_expandLanes s hj, lane_expandLanes s' hj, hrate, hapos, hS]
  rw [snapshot_eq_iff]
  rw [expandLanes_eq, expandLanes_eq] at hlane ⊢
  exact ⟨hv, rfl, hrate, rfl, hapos, hS, hlane⟩

theorem snapshot_permuteAllLanes {s s' : State} (h : snapshot s = snapshot s') :
    snapshot (permuteAllLanes s) = snapshot (permuteAllLanes s') := by
  obtain ⟨hv, hm, hrate, hcur, hapos, hS, hlanes⟩ := (snapshot_eq_iff s s').1 h
  have hlane : ∀ j < 8, lane (permuteAllLanes s).width (permuteAllLanes s).buffer j =
      lane (permuteAllLanes s').width (permuteAllLanes s').buffer j := fun j hj => by
    rw [lane_permuteAllLanes s hj, lane_permuteAllLanes s' hj, hlanes j hj]
  rw [snapshot_eq_iff]
  rw [permuteAllLanes_eq, permuteAllLanes_eq] at hlane ⊢
  exact ⟨hv, hm, hrate, hcur, hapos, hS, hlane⟩

theorem snapshot_expandIfAbsorbing {s s' : State} (h : snapshot s = snapshot s') :
    snapshot (expandIfAbsorbing s) = snapshot (expandIfAbsorbing s') := by
  have hm : s.mode = s'.mode := congrArg Snapshot.mode h
  unfold expandIfAbsorbing squeezingBegun
  rw [hm]
  split
  · exact h
  · exact snapshot_expandLanes h

theorem deliver_alike (n : Nat) {s s' : State} (h : snapshot s = snapshot s') :
    (deliver n s).1 = (deliver n s').1 ∧
      snapshot (deliver n s).2 = snapshot (deliver n s').2 := by
  obtain ⟨hv, hm, hrate, hcur, hapos, hS, hlanes⟩ := (snapshot_eq_iff s s').1 h
  obtain ⟨hout, hrate', hcur', hlanes'⟩ := deliverLoop_alike n n ⟨hrate, hcur, hlanes⟩
  rw [snapshot_eq_iff]
  refine ⟨hout, ?_, ?_, hrate', hcur', ?_, ?_, hlanes'⟩
  all_goals
    rw [deliver_frame n s, deliver_frame n s']
    assumption

/-! ## Each instruction and each run, from equal instances -/

/-- Two outcomes, of engines at `s` and at `s'`, that show no difference: both are next states, with
equal instances, and the same responses were returned on the way. -/
def Alike (s s' : State) (o o' : Host.Outcome State Fault Refusal) : Prop :=
  ∃ t t' responses, o = .next t ∧ o' = .next t' ∧ snapshot t = snapshot t' ∧
    t.outbox = s.outbox ++ responses ∧ t'.outbox = s'.outbox ++ responses

theorem Alike.raise {s s' : State} (e : Status) (h : snapshot s = snapshot s') :
    Alike s s' (raise e s) (raise e s') := ⟨_, _, _, rfl, rfl, h, rfl, rfl⟩

theorem Alike.finish {s s' u u' : State} (out : List Byte) (h : snapshot u = snapshot u')
    (hu : u.outbox = s.outbox) (hu' : u'.outbox = s'.outbox) :
    Alike s s' (finish out u) (finish out u') :=
  ⟨_, _, [⟨.ok, out⟩], rfl, rfl, h, by rw [State.respond_outbox, hu],
    by rw [State.respond_outbox, hu']⟩

/-- A micro-operation that completes returns no response. -/
theorem Alike.silent {s s' u u' : State} (h : snapshot u = snapshot u')
    (hu : u.outbox = s.outbox) (hu' : u'.outbox = s'.outbox) :
    Alike s s' (.next u) (.next u') :=
  ⟨u, u', [], rfl, rfl, h, by rw [hu, List.append_nil], by rw [hu', List.append_nil]⟩

/-- The lifecycle and length checks read the snapshot, and so does what comes after them. -/
theorem exec_alike (i : Instr) {s s' : State} (h : snapshot s = snapshot s') :
    Alike s s' (exec i s) (exec i s') := by
  have hv : s.valid = s'.valid := congrArg Snapshot.valid h
  have hm : s.mode = s'.mode := congrArg Snapshot.mode h
  cases i with
  | init128 => exact .finish [] (snapshot_createInstance rate128 s s') rfl rfl
  | init256 => exact .finish [] (snapshot_createInstance rate256 s s') rfl rfl
  | update data =>
    rcases execUpdate_cases data s with ⟨hfail, _⟩ | ⟨hv', hm', _⟩
    · rw [updateRejectedOutsideAbsorbing s data hfail,
        updateRejectedOutsideAbsorbing s' data (hv ▸ hm ▸ hfail)]
      exact .raise .invalidState h
    · rw [exec_update_of_absorbing data hv' hm',
        exec_update_of_absorbing data (hv ▸ hv') (hm ▸ hm')]
      exact .finish [] (snapshot_absorb data h) (by rw [absorb_eq]) (by rw [absorb_eq])
  | squeeze n =>
    rcases execSqueeze_cases n s with ⟨hv', _⟩ | ⟨hv', hn, _⟩ | ⟨hv', hn, _⟩
    · rw [squeezeRejectedBeforeInit s n hv', squeezeRejectedBeforeInit s' n (hv ▸ hv')]
      exact .raise .invalidState h
    · rw [squeezeRejectsMisalignedLength s n hv' hn,
        squeezeRejectsMisalignedLength s' n (hv ▸ hv') hn]
      exact .raise .invalidLength h
    · obtain ⟨hout, hsnap⟩ := deliver_alike n.toNat (snapshot_expandIfAbsorbing h)
      rw [exec_squeeze_of_aligned hv' hn, exec_squeeze_of_aligned (hv ▸ hv') hn, ← hout]
      exact .finish _ hsnap (by rw [deliver_expandIfAbsorbing_frame])
        (by rw [deliver_expandIfAbsorbing_frame])
  | finalize => exact .silent h rfl rfl
  | expand =>
    rcases execExpand_cases s with ⟨hm', _⟩ | ⟨hm', _⟩
    · rw [expandGuardsAgainstSecondRun s hm', expandGuardsAgainstSecondRun s' (hm ▸ hm')]
      exact .raise .invalidState h
    · rw [exec_expand_of_absorbing hm', exec_expand_of_absorbing (hm ▸ hm')]
      exact .silent (snapshot_expandLanes h) (by rw [expandLanes_frame])
        (by rw [expandLanes_frame])
  | permall =>
    exact .silent (snapshot_permuteAllLanes h) (by rw [permuteAllLanes_frame])
      (by rw [permuteAllLanes_frame])

/-- Settles O50: an instruction reads the instance through the snapshot only. -/
theorem crossWidthEquivalence : Obligations.CrossWidthEquivalence := by
  intro i s s' t h hexec
  obtain ⟨u, t', responses, hu, ht', hsnap, hbox, hbox'⟩ := exec_alike i h
  cases hu.symm.trans hexec
  exact ⟨t', responses, ht', hsnap, hbox, hbox'⟩

/-- One instruction, and then a run of more. -/
theorem Alike.cons {i : Instr} {is : List Instr} {s s' : State}
    (h : Alike s s' (exec i s) (exec i s'))
    (hrest : ∀ t t', snapshot t = snapshot t' → Alike t t' (execAll is t) (execAll is t')) :
    Alike s s' (execAll (i :: is) s) (execAll (i :: is) s') := by
  obtain ⟨t, t', rs, ht, ht', hsnap, hbox, hbox'⟩ := h
  obtain ⟨u, u', rs', hu, hu', hsnap', hubox, hubox'⟩ := hrest t t' hsnap
  refine ⟨u, u', rs ++ rs', ?_, ?_, hsnap', ?_, ?_⟩
  · rw [execAll, ht, ← hu]
  · rw [execAll, ht', ← hu']
  · rw [hubox, hbox, List.append_assoc]
  · rw [hubox', hbox', List.append_assoc]

theorem execAll_alike (is : List Instr) {s s' : State} (h : snapshot s = snapshot s') :
    Alike s s' (execAll is s) (execAll is s') := by
  induction is generalizing s s' with
  | nil => exact .silent h rfl rfl
  | cons i is ih => exact (exec_alike i h).cons fun _ _ hsnap => ih hsnap

/-- Settles O51: the `INIT` leaves equal instances, from which every run is alike. -/
theorem initHistoryAndWidthInvisible : Obligations.InitHistoryAndWidthInvisible := by
  intro l commands s s' _
  refine Alike.cons ?_ fun _ _ hsnap => execAll_alike commands hsnap
  rw [exec_initInstr, exec_initInstr]
  exact .finish [] (snapshot_createInstance (initRate l) s s') rfl rfl

/-! ## The ideal generator -/

/-- Settles O52: each command, where its checks fail and where it runs, against the same case of the
ideal step. -/
theorem refinesIdealGenerator : Obligations.RefinesIdealGenerator := by
  intro i s a hi hsim
  cases i with
  | init128 =>
    exact ⟨_, rfl, simulates_respond .ok [] (simulates_createInstance .l128 s), rfl⟩
  | init256 =>
    exact ⟨_, rfl, simulates_respond .ok [] (simulates_createInstance .l256 s), rfl⟩
  | update data =>
    match a, hsim with
    | none, hsim =>
      exact ⟨_, updateRejectedOutsideAbsorbing s data (.inl hsim), hsim, rfl⟩
    | some ⟨l, seed, none⟩, hsim =>
      have ⟨hv, _, _, hm, _⟩ := hsim
      refine ⟨_, exec_update_of_absorbing data hv hm,
        simulates_respond .ok [] (simulates_absorb data hsim), ?_⟩
      rw [absorb_eq]
      rfl
    | some ⟨l, seed, some p⟩, hsim =>
      have ⟨_, _, _, hm, _⟩ := hsim
      exact ⟨_, updateRejectedOutsideAbsorbing s data (.inr hm), hsim, rfl⟩
  | squeeze n =>
    match a, hsim with
    | none, hsim => exact ⟨_, squeezeRejectedBeforeInit s n hsim, hsim, rfl⟩
    | some a, hsim =>
      have ⟨hv, _⟩ := hsim
      by_cases hn : n.toNat % 64 = 0
      · obtain ⟨hbytes, hsim'⟩ := deliver_simulates (simulates_expandIfAbsorbing hsim) hn
        rw [idealStep, if_pos hn]
        refine ⟨_, exec_squeeze_of_aligned hv hn, simulates_respond .ok _ hsim', ?_⟩
        rw [hbytes, deliver_expandIfAbsorbing_frame]
        rfl
      · rw [idealStep, if_neg hn]
        exact ⟨_, squeezeRejectsMisalignedLength s n hv hn, hsim, rfl⟩
  | finalize => cases hi
  | expand => cases hi
  | permall => cases hi

/-! ## The requests of a run -/

/-- `UPDATE`s issue no request. -/
theorem execAll_updates_trace (payloadList : List (List Byte)) {s t : State}
    (h : execAll (payloadList.map Instr.update) s = .next t) :
    t.trace = s.trace ∧ t.width = s.width := by
  induction payloadList generalizing s with
  | nil => cases h; exact ⟨rfl, rfl⟩
  | cons data rest ih =>
    obtain ⟨u, hu, heffect⟩ := exec_completes (.update data) s
    have hframe : u.trace = s.trace ∧ u.width = s.width := by
      obtain ⟨-, -, -, -, htrace, hwidth, -⟩ := writersOfEachElement _ s u hu
      exact ⟨not_not.1 fun hne => by simpa using htrace hne, hwidth⟩
    rw [List.map_cons, execAll, hu] at h
    rw [← hframe.1, ← hframe.2]
    exact ih h

/-- An absorbing instance has its registers in range. -/
theorem Simulates.inRange_of_absorbing {s : State} {l : Level} {seed : List Byte}
    (h : Simulates s (some ⟨l, seed, none⟩)) : registersInRange s = true := by
  have ha := h.apos_lt
  have hr := h.rate_le
  obtain ⟨-, -, -, hm, -⟩ := h
  exact (registersInRange_absorbing hm).2 ⟨hr, ha⟩

/-- The lane byte of an absorbing instance fills the block when the seed ends one byte before a block
does (R131). -/
theorem Simulates.expandBatches_eq {s : State} {l : Level} {seed : List Byte}
    (h : Simulates s (some ⟨l, seed, none⟩)) :
    expandBatches s = (if seed.length % l.rate = l.rate - 1 then 1 else 0) + 1 := by
  have hpos := spongeAbsorb_position l.rate_pos seed
  have hbatches := expandBatches_eq_of_lt h.apos_lt
  obtain ⟨-, hrate, hS, -⟩ := h
  dsimp only at hrate hS
  rw [hS] at hpos
  dsimp only at hpos
  rw [hbatches, hpos, hrate]
  split <;> rfl

/-- The requests of the `SQUEEZE`s of an absorbing instance: those of the `EXPAND`, then one batch for
each further super-block begun (42_permutation_scheduler.md R149). -/
theorem execAll_squeezes_trace {s : State} {l : Level} {seed : List Byte}
    (h : Simulates s (some ⟨l, seed, none⟩)) {lengths : List (BitVec 28)} (hne : lengths ≠ [])
    (hn : ∀ n ∈ lengths, n.toNat % 64 = 0) :
    ∃ t, execAll (lengths.map Instr.squeeze) s = .next t ∧
      t.trace = s.trace ++ batchTrace s.width (expandBatches s +
        if (lengths.map BitVec.toNat).sum = 0 then 0
          else ((lengths.map BitVec.toNat).sum - 1) / (8 * l.rate)) := by
  have hreg := h.inRange_of_absorbing
  obtain ⟨hv, hrate, -, hm, -⟩ := h
  dsimp only at hrate
  obtain ⟨responses, hrun, -⟩ := execAll_squeezes_of_ne_nil hne hv hreg hn
  refine ⟨_, hrun, ?_⟩
  generalize (lengths.map BitVec.toNat).sum = total
  rw [deliver_eq_of_inRange total (expandIfAbsorbing_mode s) (expandIfAbsorbing_inRange hreg),
    expandIfAbsorbing_of_absorbing hm, expandLanes_eq]
  simp only [refillsFor, BitVec.toNat_ofNat, Nat.zero_mod, Nat.zero_add, hrate, batchTrace_add,
    List.append_assoc]

/-- Settles O54: the requests of a run are those of its `SQUEEZE`s, at the seed the `UPDATE`s gave. -/
theorem runCountsPermutations : Obligations.RunCountsPermutations := by
  intro s l payloadList lengths hn total e
  obtain ⟨t, ⟨hupdates, -⟩, hsim⟩ :=
    returns_updates payloadList (simulates_respond .ok [] (simulates_createInstance l s))
  obtain ⟨htrace, hwidth⟩ := execAll_updates_trace payloadList hupdates
  rw [State.respond_trace, createInstance_trace] at htrace
  rw [State.respond_width, createInstance_width] at hwidth
  have hrun : execAll (initInstr l :: (payloadList.map Instr.update ++ lengths.map Instr.squeeze)) s =
      execAll (lengths.map Instr.squeeze) t := by
    rw [execAll, exec_initInstr]
    exact execAll_append hupdates _
  rw [hrun]
  by_cases hne : lengths = []
  · exact ⟨t, by rw [hne]; rfl, requests_length s.width, by simp [hne, htrace]⟩
  · obtain ⟨u, hu, hutrace⟩ := execAll_squeezes_trace hsim hne hn
    refine ⟨u, hu, requests_length s.width, ?_⟩
    rw [hutrace, htrace, hwidth, hsim.expandBatches_eq, if_neg hne]
    show s.trace ++ batchTrace s.width
        (e + 1 + if total = 0 then 0 else (total - 1) / (8 * l.rate)) =
      s.trace ++ batchTrace s.width
        (if total = 0 then e + 1 else e + 1 + (total - 1) / (8 * l.rate))
    by_cases htotal : total = 0
    · rw [if_pos htotal, if_pos htotal, Nat.add_zero]
    · rw [if_neg htotal, if_neg htotal]

end Sys2Proof

/-! SUPPORT. The proofs of the statements on registers outside their legal values, and on what an
instruction reads (10_state.md R24, R28, R29). -/

namespace Sys2Proof

open Sys2Proof.Machine

/-! ## Whatever the registers hold -/

/-- Settles O56: the frames of the three operations ask nothing of the registers. -/
theorem commandsCompleteOnAnyRegisters : Obligations.CommandsCompleteOnAnyRegisters := by
  refine ⟨fun s data hv hm => ⟨_, exec_update_of_absorbing data hv hm, ?_⟩,
    fun s hm => ⟨_, exec_expand_of_absorbing hm, expandLanes_frame s⟩,
    fun s n hv hn => ⟨_, _, exec_squeeze_of_aligned hv hn,
      deliver_length n.toNat (expandIfAbsorbing s), ?_⟩⟩
  · rw [absorb_eq]
    rfl
  · rw [deliver_expandIfAbsorbing_frame]
    rfl

/-- From an `apos` below 200 the next one fits its 8 bits. -/
theorem nextApos_of_lt {s : State} (h : s.apos.toNat < 200) : nextApos s = s.apos + 1#8 := by
  rw [nextApos, if_pos (by omega), ← BitVec.toNat_inj, BitVec.toNat_add, BitVec.toNat_ofNat]
  rfl

/-- One byte absorbed at a position inside a state (40_lifecycle.md R106). -/
theorem absorb_singleton {s : State} (x : Byte) (h : s.apos.toNat < 200) :
    absorb [x] s =
      if s.apos.toNat + 1 = s.rate.toNat then
        { s with
          S := keccakP (s.S.xorByte s.apos.toNat x), apos := 0#8,
          scalarPerms := s.scalarPerms + 1 }
      else { s with S := s.S.xorByte s.apos.toNat x, apos := s.apos + 1#8 } := by
  rw [absorb_cons, absorb_nil, absorbByte, xorStateByte_of_lt _ _ h, nextApos_of_lt h]

/-- Settles O57: the free values stand only where a position, an offset or a sum leaves the range the
rules give it. -/
theorem rulesFollowedBeyondLegalRegisters : Obligations.RulesFollowedBeyondLegalRegisters := by
  refine ⟨fun s x hv hm ha => ?_, fun s hm h0 hr ha hlast => ?_,
    fun s n hv hm hn hlt hfit hin => ?_⟩
  · rw [exec_update_of_absorbing [x] hv hm, absorb_singleton x ha]
    split <;> rfl
  · refine ⟨_, exec_expand_of_absorbing hm, fun j hj => ?_⟩
    rw [lane_expandLanes s hj]
    exact expandedLane_of_inState s.S j h0 hr ha hlast
  · have hcur : (advance s n.toNat).cursor.toNat = s.cursor.toNat + n.toNat := by
      rw [advance_cursor, if_pos (by omega), BitVec.toNat_ofNat, Nat.mod_eq_of_lt (by omega)]
    refine ⟨(advance s n.toNat).respond .ok (serialize s n.toNat), serialize s n.toNat, ?_,
      serialize_length s _, fun k hk => ?_, hcur, rfl⟩
    · rw [exec_squeeze_of_squeezing hv hn hm, deliver_of_one_pass hlt hfit]
      rfl
    · have hbyte : canonicalByte (s.cursor.toNat + k) < 200 := by rw [canonicalByte_eq]; omega
      rw [serialize_getElem? s hk, sbByte, if_pos ⟨by omega, hbyte⟩, canonicalAddr, ← laneByte,
        ← lane_byte _ _ _ hbyte, canonicalByte_eq, canonicalLane]

/-! ## What an instruction does with `cursor` -/

/-- The instruction leaves the same, with `cursor` as it was. -/
def KeepsCursor (i : Instr) (s : State) : Prop :=
  ∃ t, exec i s = .next t ∧ ∀ c, exec i { s with cursor := c } = .next { t with cursor := c }

/-- The instruction leaves the same, `cursor` included. -/
def OverwritesCursor (i : Instr) (s : State) : Prop :=
  ∃ t, exec i s = .next t ∧ ∀ c, exec i { s with cursor := c } = .next t

theorem KeepsCursor.ignores {i : Instr} {s : State} (h : KeepsCursor i s) : ignoresCursor i s := by
  obtain ⟨t, ht, hc⟩ := h
  exact ⟨t, ht, .inr hc⟩

theorem OverwritesCursor.ignores {i : Instr} {s : State} (h : OverwritesCursor i s) :
    ignoresCursor i s := by
  obtain ⟨t, ht, hc⟩ := h
  exact ⟨t, ht, .inl hc⟩

theorem keepsCursor_update (data : List Byte) (s : State) : KeepsCursor (.update data) s := by
  rcases execUpdate_cases data s with ⟨hfail, hraise⟩ | ⟨hv, hm, hfinish⟩
  · exact ⟨_, hraise, fun c => updateRejectedOutsideAbsorbing { s with cursor := c } data hfail⟩
  · refine ⟨_, hfinish, fun c => ?_⟩
    have habsorb := absorb_with_cursor_outbox data s c s.outbox
    rw [exec_update_of_absorbing (s := { s with cursor := c }) data hv hm, habsorb, absorb_eq]
    rfl

/-- `EXPAND` sets `cursor` and does not read it (10_state.md R24). -/
theorem expandLanes_cursor (s : State) (c : BitVec 11) :
    expandLanes { s with cursor := c } = expandLanes s := by
  rw [expandLanes_eq, expandLanes_eq]
  rfl

theorem exec_expand_cursor {s : State} (hm : s.mode = .absorbing) (c : BitVec 11) :
    exec .expand { s with cursor := c } = exec .expand s := by
  rw [exec_expand_of_absorbing hm, exec_expand_of_absorbing (s := { s with cursor := c }) hm,
    expandLanes_cursor]

theorem exec_squeeze_cursor {s : State} {n : BitVec 28} (hm : s.mode = .absorbing)
    (hv : s.valid = true) (hn : n.toNat % 64 = 0) (c : BitVec 11) :
    exec (.squeeze n) { s with cursor := c } = exec (.squeeze n) s := by
  rw [exec_squeeze_of_aligned hv hn, exec_squeeze_of_aligned (s := { s with cursor := c }) hv hn,
    expandIfAbsorbing_of_absorbing hm,
    expandIfAbsorbing_of_absorbing (s := { s with cursor := c }) hm, expandLanes_cursor]

/-- A `SQUEEZE` in Absorbing mode fails before it reads `cursor`, or begins with `EXPAND`. -/
theorem ignoresCursor_squeeze {s : State} (n : BitVec 28) (hm : s.mode = .absorbing) :
    ignoresCursor (.squeeze n) s := by
  rcases execSqueeze_cases n s with ⟨hv, hraise⟩ | ⟨hv, hn, hraise⟩ | ⟨hv, hn, hfinish⟩
  · exact KeepsCursor.ignores ⟨_, hraise, fun c => squeezeRejectedBeforeInit _ n hv⟩
  · exact KeepsCursor.ignores ⟨_, hraise, fun c => squeezeRejectsMisalignedLength _ n hv hn⟩
  · exact OverwritesCursor.ignores ⟨_, hfinish, fun c =>
      (exec_squeeze_cursor hm hv hn c).trans hfinish⟩

theorem ignoresCursor_expand (s : State) : ignoresCursor .expand s := by
  rcases execExpand_cases s with ⟨hm, hraise⟩ | ⟨hm, hnext⟩
  · exact KeepsCursor.ignores ⟨_, hraise, fun c => expandGuardsAgainstSecondRun _ hm⟩
  · exact OverwritesCursor.ignores ⟨_, hnext, fun c => (exec_expand_cursor hm c).trans hnext⟩

theorem keepsCursor_permall (s : State) : KeepsCursor .permall s := by
  refine ⟨_, exec_permall s, fun c => ?_⟩
  rw [exec_permall, permuteAllLanes_eq, permuteAllLanes_eq]

/-! ## What an instruction does with `apos` and `S` -/

/-- The instruction leaves the same, with `apos` and `S` as they were. -/
def KeepsAposS (i : Instr) (s : State) : Prop :=
  ∃ t, exec i s = .next t ∧
    ∀ a v, exec i { s with apos := a, S := v } = .next { t with apos := a, S := v }

theorem KeepsAposS.ignores {i : Instr} {s : State} (h : KeepsAposS i s) : ignoresAposS i s := by
  obtain ⟨t, ht, hav⟩ := h
  exact ⟨t, ht, .inr hav⟩

theorem keepsAposS_update {s : State} (data : List Byte)
    (h : s.valid = false ∨ s.mode = .squeezing) : KeepsAposS (.update data) s :=
  ⟨_, updateRejectedOutsideAbsorbing s data h, fun _ _ => updateRejectedOutsideAbsorbing _ data h⟩

/-- A `SQUEEZE` that fails, or that needs no `EXPAND`, does not read them (10_state.md R28, R29). -/
theorem keepsAposS_squeeze {s : State} (n : BitVec 28)
    (h : s.mode = .squeezing ∨ s.valid = false ∨ n.toNat % 64 ≠ 0) :
    KeepsAposS (.squeeze n) s := by
  rcases execSqueeze_cases n s with ⟨hv, hraise⟩ | ⟨hv, hn, hraise⟩ | ⟨hv, hn, -⟩
  · exact ⟨_, hraise, fun _ _ => squeezeRejectedBeforeInit _ n hv⟩
  · exact ⟨_, hraise, fun _ _ => squeezeRejectsMisalignedLength _ n hv hn⟩
  · have hm : s.mode = .squeezing := by simpa [hv, hn] using h
    refine ⟨_, exec_squeeze_of_squeezing hv hn hm, fun a v => ?_⟩
    have hdeliver := deliver_with_apos_S_outbox n.toNat s a v s.outbox
    rw [exec_squeeze_of_squeezing (s := { s with apos := a, S := v }) hv hn hm, hdeliver,
      deliver_frame]
    rfl

theorem keepsAposS_permall (s : State) : KeepsAposS .permall s := by
  refine ⟨_, exec_permall s, fun a v => ?_⟩
  rw [exec_permall, permuteAllLanes_eq, permuteAllLanes_eq]

/-- While the mode is Absorbing only `SQUEEZE` could read `cursor`, and it begins with
`EXPAND` (R24). -/
theorem ignoresCursor_unless_squeezing {i : Instr} {s : State}
    (h : s.mode = .absorbing ∨ ∀ n, i ≠ .squeeze n) : ignoresCursor i s := by
  cases i with
  | init128 => exact OverwritesCursor.ignores ⟨_, rfl, fun _ => rfl⟩
  | init256 => exact OverwritesCursor.ignores ⟨_, rfl, fun _ => rfl⟩
  | update data => exact (keepsCursor_update data s).ignores
  | squeeze n =>
    rcases h with hm | hne
    · exact ignoresCursor_squeeze n hm
    · exact absurd rfl (hne n)
  | finalize => exact KeepsCursor.ignores ⟨s, rfl, fun _ => rfl⟩
  | expand => exact ignoresCursor_expand s
  | permall => exact (keepsCursor_permall s).ignores

/-- `apos` and `S` are read by what absorbs and by what expands, past their checks (R28, R29). -/
theorem ignoresAposS_unless_absorbing {i : Instr} {s : State}
    (h : s.mode = .squeezing ∨ i = .init128 ∨ i = .init256 ∨ i = .finalize ∨ i = .permall ∨
      (∃ data, i = .update data ∧ s.valid = false) ∨
      ∃ n, i = .squeeze n ∧ (s.valid = false ∨ n.toNat % 64 ≠ 0)) : ignoresAposS i s := by
  cases i with
  | init128 => exact ⟨_, rfl, .inl fun _ _ => rfl⟩
  | init256 => exact ⟨_, rfl, .inl fun _ _ => rfl⟩
  | update data => exact (keepsAposS_update data (by simpa [or_comm] using h)).ignores
  | squeeze n => exact (keepsAposS_squeeze n (by simpa using h)).ignores
  | finalize => exact ⟨s, rfl, .inr fun _ _ => rfl⟩
  | expand =>
    have hm : s.mode = .squeezing := by simpa using h
    exact KeepsAposS.ignores ⟨_, expandGuardsAgainstSecondRun s hm, fun _ _ =>
      expandGuardsAgainstSecondRun _ hm⟩
  | permall => exact (keepsAposS_permall s).ignores

/-- Settles O58: instruction by instruction, whether the elements are overwritten or kept. -/
theorem readersOfCursorAposS : Obligations.ReadersOfCursorAposS := by
  refine ⟨fun i s h => ignoresCursor_unless_squeezing h,
    fun i s h => ignoresAposS_unless_absorbing h, fun s data c _ => ?_,
    fun s c hm => exec_expand_cursor hm c, fun s n c hm hv hn => exec_squeeze_cursor hm hv hn c,
    fun s n a v hm => ?_⟩
  · obtain ⟨t, ht, hc⟩ := keepsCursor_update data s
    exact ⟨t, ht, hc c⟩
  · obtain ⟨t, ht, hav⟩ := keepsAposS_squeeze n (.inl hm)
    exact ⟨t, ht, hav a v⟩

end Sys2Proof

/-! SUPPORT. The proof of the statement on the permutation (45_external_primitives.md R211). -/

namespace Sys2Proof

open Sys2Proof.Machine

/-- Inside the table no index is reduced. -/
theorem keccakA_of_lt (s : PState) {x y : Nat} (hx : x < 5) (hy : y < 5) :
    keccakA s x y = s.word (x + 5 * y) := by
  rw [keccakA, Nat.mod_eq_of_lt hx, Nat.mod_eq_of_lt hy]

/-- Reading back word `x + 5y` of a state packed from words. -/
theorem word_ofWords_index (f : Nat → Word) {x y : Nat} (hx : x < 5) (hy : y < 5) :
    (PState.ofWords f).word (x + 5 * y) = f (x + 5 * y) :=
  PState.word_ofWords f (by omega)

theorem index_mod {x : Nat} (hx : x < 5) (y : Nat) : (x + 5 * y) % 5 = x := by omega

theorem index_div {x : Nat} (hx : x < 5) (y : Nat) : (x + 5 * y) / 5 = y := by omega

/-- `C[x]`: the sum of column `x` (R211). -/
def columnSum (s : PState) (x : Nat) : Word :=
  keccakA s x 0 ^^^ keccakA s x 1 ^^^ keccakA s x 2 ^^^ keccakA s x 3 ^^^ keccakA s x 4

/-- `D[x]`: what θ adds to column `x` (R211). -/
def thetaOffset (s : PState) (x : Nat) : Word :=
  columnSum s (x + 4) ^^^ (columnSum s (x + 1)).rotateLeft 1

/-- The array after ρ and π: the word that lands in column `x`, row `y` (R211). -/
def rhoPiWord (s : PState) (x y : Nat) : Word :=
  (keccakA s ((x + 3 * y) % 5) x).rotateLeft (keccakRot ((x + 3 * y) % 5) x)

theorem word_keccakTheta (s : PState) {x y : Nat} (hx : x < 5) (hy : y < 5) :
    (keccakTheta s).word (x + 5 * y) = s.word (x + 5 * y) ^^^ thetaOffset s x := by
  rw [keccakTheta, word_ofWords_index _ hx hy, index_mod hx, index_div hx, keccakA_of_lt s hx hy]
  rfl

theorem word_keccakRhoPi (s : PState) {x y : Nat} (hx : x < 5) (hy : y < 5) :
    (keccakRhoPi s).word (x + 5 * y) = rhoPiWord s x y := by
  rw [keccakRhoPi, word_ofWords_index _ hx hy, index_mod hx, index_div hx]
  rfl

/-- Row `y` after χ (R211). -/
theorem word_keccakChi (s : PState) {x y : Nat} (hx : x < 5) (hy : y < 5) :
    (keccakChi s).word (x + 5 * y) =
      s.word (x + 5 * y) ^^^ (~~~s.word ((x + 1) % 5 + 5 * y) &&& s.word ((x + 2) % 5 + 5 * y)) := by
  rw [keccakChi, word_ofWords_index _ hx hy, index_mod hx, index_div hx]
  dsimp only
  rw [keccakA_of_lt s hx hy, keccakA, keccakA, Nat.mod_eq_of_lt hy]

/-- ι adds the round constant to word 0 and leaves the others (R211). -/
theorem word_keccakIota (rc : Word) (s : PState) {i : Nat} (hi : i < 25) :
    (keccakIota rc s).word i = s.word i ^^^ (if i = 0 then rc else 0#64) := by
  apply BitVec.eq_of_getLsbD_eq
  intro k hk
  have hin : 64 * i + k < 1600 := by omega
  rw [BitVec.getLsbD_xor, PState.word_getLsbD, PState.word_getLsbD, keccakIota, BitVec.getLsbD_xor,
    BitVec.getLsbD_setWidth]
  by_cases h : i = 0
  · simp [h, hk]
    omega
  · rw [BitVec.getLsbD_of_ge rc _ (by omega)]
    simp [h, hk]

/-- One round, word by word, on the array after ρ and π (R211). -/
theorem word_keccakRound (s : PState) (rc : Word) {x y : Nat} (hx : x < 5) (hy : y < 5) :
    (keccakRound s rc).word (x + 5 * y) =
      rhoPiWord (keccakTheta s) x y ^^^
        (~~~rhoPiWord (keccakTheta s) ((x + 1) % 5) y &&&
          rhoPiWord (keccakTheta s) ((x + 2) % 5) y) ^^^
        (if x = 0 ∧ y = 0 then rc else 0#64) := by
  have hzero : x + 5 * y = 0 ↔ x = 0 ∧ y = 0 := by omega
  rw [keccakRound, word_keccakIota rc _ (by omega), word_keccakChi _ hx hy,
    word_keccakRhoPi _ hx hy, word_keccakRhoPi _ (Nat.mod_lt _ (by decide)) hy,
    word_keccakRhoPi _ (Nat.mod_lt _ (by decide)) hy]
  simp only [hzero]

theorem columnSum_mod (s : PState) (x : Nat) : columnSum s (x % 5) = columnSum s x := by
  simp only [columnSum, keccakA, Nat.mod_mod]

/-- Settles O59: `C`, `D` and `A` are those of θ, `B` is the array after ρ and π, and the place
`(y, 2x+3y)` determines `x` and `y`. -/
theorem keccakRoundFollowsRule : Obligations.KeccakRoundFollowsRule := by
  refine ⟨fun s rc => ⟨columnSum s, thetaOffset s, fun x y => s.word (x + 5 * y) ^^^ thetaOffset s x,
    rhoPiWord (keccakTheta s), fun x hx => ?_, fun x _ => ?_, fun _ _ _ _ => rfl,
    fun x hx y hy => ?_, fun x hx y hy => word_keccakRound s rc hx hy⟩, rfl, fun s => ?_⟩
  · simp only [columnSum, keccakA, Nat.mod_eq_of_lt hx]
    rfl
  · rw [columnSum_mod, columnSum_mod, thetaOffset]
  · have hback : (y + 3 * ((2 * x + 3 * y) % 5)) % 5 = x := by omega
    rw [rhoPiWord, hback, keccakA_of_lt _ hx hy, word_keccakTheta s hx hy]
  · rw [keccakP]

end Sys2Proof
